-- ==== Sys2Proof/Word.lean ====
section
/-! DEFINITION. The word types of the LCD command encoder (spec/00_scope.md R9, R12). -/

namespace Sys2Proof

/-- A byte: every register of the shadow, every bus field and every item of the operation
stream is 8 bits wide (R9). -/
abbrev Byte := BitVec 8

/-- The duration of a delay request, a 16-bit unsigned number of microseconds (R9). -/
abbrev Micros := BitVec 16

end Sys2Proof
end

