-- ==== Sys2Proof/Config.lean ====
section
/-! DEFINITION. What an installation of the block fixes: the configuration inputs sampled at
reset (spec/00_scope.md R3, R8) and the one parameter the spec leaves open (R11). -/

namespace Sys2Proof

/-- The configuration inputs `cfg_bus8`, `cfg_lines2`, `cfg_font10`, sampled at reset (R8). -/
structure Cfg where
  /-- `cfg_bus8`: true selects the 8-bit bus, false the 4-bit bus. -/
  bus8 : Bool
  /-- `cfg_lines2`: true selects two or more lines, false one line. -/
  lines2 : Bool
  /-- `cfg_font10`: true selects 5×10 cells, false 5×8 cells. -/
  font10 : Bool
  deriving DecidableEq, Repr

/-- The configuration under which `State.reset` is taken: 8-bit bus, two lines, 5×8 cells, the
one of the spec's own worked example (41_init.md R131). DESIGN CHOICE, log 1. -/
def Config.resetCfg : Cfg := ⟨true, true, false⟩

/-- `T_PW_MIN`, the strobe pulse width the Bus Transport owes (40_transaction.md R102). The spec
leaves it OPEN and no rule reads it; nothing in this model does. Log 14. -/
opaque Config.tPwMin : Nat

end Sys2Proof
end

