-- ==== Sys2Proof/Machine/Fields.lean ====
section
/-! DEFINITION. Bit fields of the registers, the controller command bytes and the constants of
the block, with no state (spec/10_state.md R23-R27, spec/30_encoding.md R83, R84,
spec/70_reset_and_hazards.md R298). What of it the spec took from general knowledge: log 16. -/

namespace Sys2Proof.Machine

/-- Position of `SH` in `entry_mode` (10_state.md R23). -/
def bitSH : Nat := 0
/-- Position of `ID` in `entry_mode` (10_state.md R23). -/
def bitID : Nat := 1
/-- Position of `B` in `display_control` (10_state.md R25). -/
def bitB : Nat := 0
/-- Position of `C` in `display_control` (10_state.md R25). -/
def bitC : Nat := 1
/-- Position of `D` in `display_control` (10_state.md R25). -/
def bitD : Nat := 2

/-- `(reg & ~(1 << bit)) | (v << bit)`: the read-modify-write of one flag (43_flags.md R160). -/
def setBit (reg : Byte) (bit : Nat) (v : Bool) : Byte :=
  (reg &&& ~~~((1 : Byte) <<< bit)) ||| ((BitVec.ofBool v).setWidth 8 <<< bit)

/-- `function_set = 0x20 | (cfg_bus8 << 4) | (cfg_lines2 << 3) | (cfg_font10 << 2)`
(10_state.md R24). -/
def functionSetOf (cfg : Cfg) : Byte :=
  0x20 ||| ((BitVec.ofBool cfg.bus8).setWidth 8 <<< 4)
    ||| ((BitVec.ofBool cfg.lines2).setWidth 8 <<< 3)
    ||| ((BitVec.ofBool cfg.font10).setWidth 8 <<< 2)

/-- `SEL_CHIP0`, EN1 (10_state.md R26). -/
def selChip0 : Byte := 0x04
/-- `SEL_CHIP1`, EN2 (10_state.md R26). -/
def selChip1 : Byte := 0x08
/-- `SEL_BOTH`, broadcast (10_state.md R26). -/
def selBoth : Byte := 0x0C

/-- The control byte with the strobes low: RS in bit 0, all else 0 (30_encoding.md R84,
40_transaction.md R101). -/
def ctrlByte (rs : Bool) : Byte := (BitVec.ofBool rs).setWidth 8

/-- The data of the two transactions of a byte on a 4-bit bus (40_transaction.md R106). -/
def highNibble (d : Byte) : Byte := d &&& 0xF0
/-- The low nibble moved to bits 7:4 (40_transaction.md R106). -/
def lowNibble (d : Byte) : Byte := (d &&& 0x0F) <<< 4

/-- `EM_CMD` of an entry-mode value (10_state.md R23). -/
def entryModeByte (em : Byte) : Byte := 0x04 ||| em
/-- `DC_CMD` of a display-control value (10_state.md R25). -/
def displayControlByte (dc : Byte) : Byte := 0x08 ||| dc

/-- Clear display (30_encoding.md R83). -/
def cmdClear : Byte := 0x01
/-- Return home, the "reset" command (30_encoding.md R83). -/
def cmdHome : Byte := 0x02
/-- Cursor shift left (30_encoding.md R83). -/
def cmdCursorLeft : Byte := 0x10
/-- Cursor shift right (30_encoding.md R83). -/
def cmdCursorRight : Byte := 0x14
/-- Display shift left (30_encoding.md R83). -/
def cmdDisplayLeft : Byte := 0x18
/-- Display shift right (30_encoding.md R83). -/
def cmdDisplayRight : Byte := 0x1C
/-- Mode select, 8-bit, initialization only (30_encoding.md R83, 41_init.md R123). -/
def cmdModeSelect : Byte := 0x30
/-- Narrowing to 4 bits, initialization only (30_encoding.md R83, 41_init.md R124). -/
def cmdNarrow : Byte := 0x20

/-- Set CGRAM address: `0x40 | ((slot & 0b111) << 3)` (20_memory.md R56, 44_cursor_glyph.md R195,
R196). -/
def cgramCommand (slot : Byte) : Byte := 0x40 ||| ((slot &&& 0x07) <<< 3)

/-- `BEGIN` step 1 (41_init.md R121). -/
def usPowerUp : Micros := 55000
/-- After the first mode select (41_init.md R123). -/
def usModeSelect1 : Micros := 4100
/-- After the second and third mode select (41_init.md R123). -/
def usModeSelect23 : Micros := 100
/-- After narrowing (41_init.md R124). -/
def usNarrow : Micros := 40
/-- The extra delay of clear and home (40_transaction.md R111). -/
def usLong : Micros := 1600
/-- `NIBBLE_SETTLE_US` (40_transaction.md R108). -/
def usNibble : Micros := 1

/-- The settle delay of a `Send`: 2 for a data write, 40 for a command write
(40_transaction.md R107). -/
def usSettle (rs : Bool) : Micros := if rs then 2 else 40

end Sys2Proof.Machine
end

