-- ==== Sys2Proof/Syntax.lean ====
section
/-! DEFINITION. The operations of the block, one constructor per row of spec/opcode_table.json
(spec/30_encoding.md R70, R72, R78). -/

namespace Sys2Proof

/-- One operation with its operands (30_encoding.md R72, R74). `HOME` is also written `RESET`
(R89). The operand of `WRITE_N` is its text, whose length is the count; the operands of
`WRITE_UNTIL` are the terminator and the text before it. -/
inductive Instr where
  /-- `BEGIN`, R129 -/
  | begin
  /-- `CLEAR`, R141 -/
  | clear
  /-- `HOME`, R142 -/
  | home
  /-- `CURSOR_LEFT`, R143 -/
  | cursorLeft
  /-- `CURSOR_RIGHT`, R144 -/
  | cursorRight
  /-- `DISPLAY_LEFT`, R145 -/
  | displayLeft
  /-- `DISPLAY_RIGHT`, R146 -/
  | displayRight
  /-- `AUTOSCROLL_ON`, R161 -/
  | autoscrollOn
  /-- `AUTOSCROLL_OFF`, R162 -/
  | autoscrollOff
  /-- `ENTRY_INC`, R163 -/
  | entryInc
  /-- `ENTRY_DEC`, R164 -/
  | entryDec
  /-- `BLINK_ON`, R165 -/
  | blinkOn
  /-- `BLINK_OFF`, R166 -/
  | blinkOff
  /-- `CURSOR_ON`, R167 -/
  | cursorOn
  /-- `CURSOR_OFF`, R168 -/
  | cursorOff
  /-- `DISPLAY_ON`, R169 -/
  | displayOn
  /-- `DISPLAY_OFF`, R170 -/
  | displayOff
  /-- `SET_CURSOR line, col`, R191 -/
  | setCursor (line col : Byte)
  /-- `CREATE_CHAR slot, p0..p7`, R195 -/
  | createChar (slot p0 p1 p2 p3 p4 p5 p6 p7 : Byte)
  /-- `SELECT_LCD n`, R231 -/
  | selectLcd (n : Byte)
  /-- `ECHO`, R232 -/
  | echo
  /-- `WRITE_N`, R211 -/
  | writeN (text : List Byte)
  /-- `WRITE_UNTIL term, text, term`, R212 -/
  | writeUntil (term : Byte) (text : List Byte)
  deriving DecidableEq, Repr

end Sys2Proof
end

