-- ==== Sys2Proof/Machine/Opcode.lean ====
section
/-! DEFINITION. The opcode map and the header lengths (spec/30_encoding.md R73, R75, R78, R80,
R82). -/

namespace Sys2Proof

/-- The 23 legal operations as the FSM holds them in its context (10_state.md R30). -/
inductive Op where
  | begin | clear | home | cursorLeft | cursorRight | displayLeft | displayRight
  | autoscrollOn | autoscrollOff | entryInc | entryDec
  | blinkOn | blinkOff | cursorOn | cursorOff | displayOn | displayOff
  | setCursor | createChar | selectLcd | echo | writeN | writeUntil
  deriving DecidableEq, Repr

/-- The opcode byte of each operation (R78). -/
def Op.toByte : Op → Byte
  | .begin => 0x01
  | .clear => 0x02
  | .home => 0x03
  | .cursorLeft => 0x04
  | .cursorRight => 0x05
  | .displayLeft => 0x06
  | .displayRight => 0x07
  | .autoscrollOn => 0x08
  | .autoscrollOff => 0x09
  | .entryInc => 0x0A
  | .entryDec => 0x0B
  | .blinkOn => 0x0C
  | .blinkOff => 0x0D
  | .cursorOn => 0x0E
  | .cursorOff => 0x0F
  | .displayOn => 0x10
  | .displayOff => 0x11
  | .setCursor => 0x12
  | .createChar => 0x13
  | .selectLcd => 0x14
  | .echo => 0x15
  | .writeN => 0x16
  | .writeUntil => 0x17

/-- The operation an opcode byte names, by exact match of the whole byte; every other byte is
illegal (R73, R78, R80). -/
def Op.ofByte (b : Byte) : Option Op :=
  match b.toNat with
  | 0x01 => some .begin
  | 0x02 => some .clear
  | 0x03 => some .home
  | 0x04 => some .cursorLeft
  | 0x05 => some .cursorRight
  | 0x06 => some .displayLeft
  | 0x07 => some .displayRight
  | 0x08 => some .autoscrollOn
  | 0x09 => some .autoscrollOff
  | 0x0A => some .entryInc
  | 0x0B => some .entryDec
  | 0x0C => some .blinkOn
  | 0x0D => some .blinkOff
  | 0x0E => some .cursorOn
  | 0x0F => some .cursorOff
  | 0x10 => some .displayOn
  | 0x11 => some .displayOff
  | 0x12 => some .setCursor
  | 0x13 => some .createChar
  | 0x14 => some .selectLcd
  | 0x15 => some .echo
  | 0x16 => some .writeN
  | 0x17 => some .writeUntil
  | _ => none

/-- The header length `h(op)`: how many operand bytes the FSM collects before the operation
starts to execute (R75). -/
def Op.headerLen : Op → Nat
  | .setCursor => 2
  | .createChar => 1
  | .selectLcd => 1
  | .writeN => 2
  | .writeUntil => 1
  | .begin | .clear | .home | .cursorLeft | .cursorRight | .displayLeft | .displayRight => 0
  | .autoscrollOn | .autoscrollOff | .entryInc | .entryDec => 0
  | .blinkOn | .blinkOff | .cursorOn | .cursorOff | .displayOn | .displayOff | .echo => 0

/-- The `WRITE_N` count `N = zext_16(lo) | (zext_16(hi) << 8)`, low byte first (R76, 20_memory.md
R53). -/
def textCount (lo hi : Byte) : BitVec 16 :=
  lo.setWidth 16 ||| (hi.setWidth 16 <<< 8)

/-- The two count bytes of a text of length `n`: `N & 0xFF, N >> 8` (R87). -/
def countBytes (n : Nat) : List Byte :=
  [BitVec.ofNat 8 (n % 256), BitVec.ofNat 8 (n / 256)]

end Sys2Proof
end

