-- ==== Sys2Proof/Machine/State.lean ====
section
/-! DEFINITION. The state of the block, its reset values, and why a step can stop
(spec/10_state.md R20, R30, R33; spec/00_scope.md R7, R10). -/

namespace Sys2Proof.Machine

/-- `bus_width` (10_state.md R22). -/
inductive BusWidth where
  | bw8
  | bw4
  deriving DecidableEq, Repr

/-- An event of the trace (00_scope.md R7). -/
inductive Event where
  /-- `Bus(ctrl, data)`: one bus write. -/
  | bus (ctrl data : Byte)
  /-- `Delay(us)`: one delay request. -/
  | delay (us : Micros)
  deriving DecidableEq, Repr

/-- The payload context of an operation (10_state.md R30): the payload bytes still expected, or
the terminator. -/
inductive Payload where
  /-- The operation takes no payload. -/
  | none
  /-- So many payload bytes are still expected. -/
  | bytes (left : Nat)
  /-- Payload bytes are expected up to and including the first equal to `term`. -/
  | upTo (term : Byte)
  deriving DecidableEq, Repr

/-- A position inside an operation: what `EXEC(op, ctx, k)` holds, and what `WAIT` holds as
`ret` (10_state.md R30). Log 12. -/
structure ExecPos where
  /-- The opcode. -/
  op : Op
  /-- The header bytes, in stream order. -/
  hdr : List Byte
  /-- What payload is still expected. -/
  pay : Payload
  /-- The payload byte being consumed, or none before the first. -/
  cur : Option Byte
  /-- The position in the statement list. -/
  k : Nat
  deriving DecidableEq, Repr

/-- The FSM state with its context (10_state.md R30). -/
inductive Fsm where
  /-- `IDLE`: waits for an opcode byte. -/
  | idle
  /-- `HDR(op, got)`: collects header bytes. -/
  | hdr (op : Op) (got : List Byte)
  /-- `EXEC(op, ctx, k)`: executes the statement at the position. -/
  | exec (p : ExecPos)
  /-- `PAYLOAD(op, ctx)`: waits for a payload byte. -/
  | payload (op : Op) (hdr : List Byte) (pay : Payload)
  /-- `WAIT(n, ret)`: holds a delay request until it is acknowledged. -/
  | wait (us : Micros) (ret : ExecPos)
  /-- `FAULT`: left only by `rst`. -/
  | fault
  deriving DecidableEq, Repr

/-- The state of the block (10_state.md R20), with the trace (00_scope.md R7) and the pending
inputs of the host (00_scope.md R10). -/
structure State where
  /-- `bus_width`, fixed at reset (R22). -/
  busWidth : BusWidth
  /-- `entry_mode`, shadow (R23). -/
  entryMode : Byte
  /-- `display_control`, shadow (R25). -/
  displayControl : Byte
  /-- `function_set`, fixed at reset (R24). -/
  functionSet : Byte
  /-- `enable_select`, selector (R26). -/
  enableSelect : Byte
  /-- `line_base_addresses`, constant table in command form (R27). -/
  lineBase : Vector Byte 2
  /-- `fsm` (R30). -/
  fsm : Fsm
  /-- `fault`, the sticky fault mark (R20, R31). Log 9. -/
  fault : Bool
  /-- The operation stream: bytes the host offers and the block has not accepted
  (20_memory.md R51). The model's field for the input. Log 2. -/
  opStream : List Byte
  /-- The reset the host asserts at the next step, with the `cfg_*` inputs (70_reset_and_hazards.md
  R280). The model's field for the input. Log 5. -/
  rst : Option Cfg
  /-- The trace, oldest event first (00_scope.md R7). Log 6. -/
  trace : List Event
  deriving DecidableEq, Repr

/-- Why the machine would stop with a fault: for no reason. The spec's one fault, `IllegalOp`, is
a state the FSM enters (60_exceptions.md R251), so it is a next state; no other condition raises
one. Nothing in the model answers a fault, and this is safe. Log 13. -/
inductive Fault where
  deriving DecidableEq, Repr

/-- Why an instruction would have no meaning. -/
inductive Refusal where
  /-- Raised by `exec` for an instruction not modelled yet, by its mnemonic; every instruction is
  modelled, so nothing raises it. Safe. -/
  | notModelled (mnemonic : String)
  deriving DecidableEq, Repr

/-- The state that reset (construction) loads under the configuration inputs `cfg`
(10_state.md R33), with no input pending and nothing emitted. -/
def State.resetWith (cfg : Cfg) : State where
  busWidth := if cfg.bus8 then .bw8 else .bw4
  entryMode := 0x02
  displayControl := 0x04
  functionSet := functionSetOf cfg
  enableSelect := selBoth
  lineBase := #v[0x80, 0xC0]
  fsm := .idle
  fault := false
  opStream := []
  rst := none
  trace := []

/-- The machine right after reset, under `Config.resetCfg` (log 1). -/
def State.reset : State := State.resetWith Config.resetCfg

end Sys2Proof.Machine
end

