-- ==== Sys2Proof/Machine/Ops.lean ====
section
/-! DEFINITION. The shared operations: emitting events, the transaction primitives, taking the
one exception, and reset (spec/40_transaction.md, spec/60_exceptions.md, spec/70_reset_and_hazards.md). -/

namespace Sys2Proof.Machine

/-- Append events to the trace, in order (00_scope.md R13; 20_memory.md R60, R61: every event is
kept). -/
def State.emits (s : State) (evs : List Event) : State :=
  { s with trace := s.trace ++ evs }

/-- `emit Bus(c, d)` (00_scope.md R13). -/
def emitBus (c d : Byte) (s : State) : State := s.emits [.bus c d]

/-- `emit Delay(us)` (00_scope.md R13). -/
def emitDelay (us : Micros) (s : State) : State := s.emits [.delay us]

/-- `Strobe(rs, d)`: strobe low, strobe(s) high, strobe low, the data unchanged
(40_transaction.md R101). -/
def strobe (rs : Bool) (d : Byte) (s : State) : State :=
  let c0 := ctrlByte rs
  let s := emitBus c0 d s
  let s := emitBus (c0 ||| s.enableSelect) d s
  emitBus c0 d s

/-- `Send(d, rs)`: one byte in one or two transactions, then its settle delay
(40_transaction.md R104-R108). -/
def send (d : Byte) (rs : Bool) (s : State) : State :=
  match s.busWidth with
  | .bw8 => emitDelay (usSettle rs) (strobe rs d s)
  | .bw4 =>
    let s := strobe rs (highNibble d) s
    let s := emitDelay usNibble s
    let s := strobe rs (lowNibble d) s
    emitDelay (usSettle rs) s

/-- `LongCmd(c)` (40_transaction.md R111). -/
def longCmd (c : Byte) (s : State) : State :=
  emitDelay usLong (send c false s)

/-- `InitStrobe(d) = Strobe(0, d)` (41_init.md R122). -/
def initStrobe (d : Byte) (s : State) : State := strobe false d s

/-- Send each byte of a text through the data register, in order (45_text.md R211). -/
def sendText : List Byte → State → State
  | [], s => s
  | b :: bs, s => sendText bs (send b true s)

/-- Send the bytes of a text through the data register until one equals `term`, which is not
sent (45_text.md R212). -/
def sendUntil (term : Byte) : List Byte → State → State
  | [], s => s
  | b :: bs, s => if b = term then s else sendUntil term bs (send b true s)

/-- The causes of the block's fault state and their codes (60_exceptions.md R251). -/
inductive Cause where
  | illegalOp
  deriving DecidableEq, Repr

/-- The cause code (60_exceptions.md R251). -/
def Cause.code : Cause → Nat
  | .illegalOp => 1

/-- Taking the exception, `raise IllegalOp(b)`: the FSM enters `FAULT` and the fault mark is set.
No event; no register, and not the byte, is written anywhere (60_exceptions.md R251, R255). -/
def raiseIllegalOp (s : State) : State :=
  { s with fsm := .fault, fault := true }

/-- `rst`, the only way out of `FAULT` and possible in every state: every field takes its reset
value, no event is emitted, and the request is consumed. The offered bytes not yet accepted and
the events already emitted are no part of the block (60_exceptions.md R256, 70_reset_and_hazards.md
R280). Logs 5 and 6. -/
def applyReset (cfg : Cfg) (s : State) : State :=
  { State.resetWith cfg with opStream := s.opStream, trace := s.trace }

end Sys2Proof.Machine
end

