-- ==== Sys2Proof/Machine/Commands.lean ====
section
/-! DEFINITION. The fixed commands (spec/42_commands.md R140-R146). -/

namespace Sys2Proof.Machine

/-- `CLEAR` (42_commands.md R141). -/
def execClear (s : State) : Host.Outcome State Fault Refusal := .next (longCmd cmdClear s)

/-- `HOME`, also `RESET` (42_commands.md R142). -/
def execHome (s : State) : Host.Outcome State Fault Refusal := .next (longCmd cmdHome s)

/-- `CURSOR_LEFT` (42_commands.md R143). -/
def execCursorLeft (s : State) : Host.Outcome State Fault Refusal :=
  .next (send cmdCursorLeft false s)

/-- `CURSOR_RIGHT` (42_commands.md R144). -/
def execCursorRight (s : State) : Host.Outcome State Fault Refusal :=
  .next (send cmdCursorRight false s)

/-- `DISPLAY_LEFT` (42_commands.md R145). -/
def execDisplayLeft (s : State) : Host.Outcome State Fault Refusal :=
  .next (send cmdDisplayLeft false s)

/-- `DISPLAY_RIGHT` (42_commands.md R146). -/
def execDisplayRight (s : State) : Host.Outcome State Fault Refusal :=
  .next (send cmdDisplayRight false s)

end Sys2Proof.Machine
end

