-- ==== Sys2Proof/Machine/Operands.lean ====
section
/-! DEFINITION. What the operand bytes of the operations select (spec/30_encoding.md R74;
spec/44_cursor_glyph.md R191; spec/46_panel.md R231). -/

namespace Sys2Proof.Machine

/-- The gate of `SET_CURSOR`: `line < 2 and col < 40`, whatever the configured line count
(44_cursor_glyph.md R191, R193). -/
def cursorInRange (line col : Byte) : Bool :=
  decide (line.toNat < 2) && decide (col.toNat < 40)

/-- `S.line_base_addresses[line]` for the two lines the gate admits (10_state.md R27). -/
def State.lineBaseOf (s : State) (line : Byte) : Byte :=
  if line.toNat = 0 then s.lineBase[0] else s.lineBase[1]

/-- The whole command byte `S.line_base_addresses[line] + col` (20_memory.md R55). -/
def State.cursorCommand (s : State) (line col : Byte) : Byte :=
  s.lineBaseOf line + col

/-- The selector pattern a panel index addresses, if it is 0 or 1 (46_panel.md R231). -/
def panelPattern (n : Byte) : Option Byte :=
  match n.toNat with
  | 0 => some selChip0
  | 1 => some selChip1
  | _ => none

end Sys2Proof.Machine
end

