-- ==== Sys2Proof/Machine/Cursor.lean ====
section
/-! DEFINITION. Cursor addressing and custom glyphs (spec/44_cursor_glyph.md). -/

namespace Sys2Proof.Machine

/-- `SET_CURSOR line, col`: one command `Send` in range, nothing at all out of range
(44_cursor_glyph.md R191, R192). -/
def execSetCursor (line col : Byte) (s : State) : Host.Outcome State Fault Refusal :=
  if cursorInRange line col then .next (send (s.cursorCommand line col) false s) else .next s

/-- `CREATE_CHAR slot, p0..p7`: set the CGRAM address of `slot & 7`, then the eight pattern rows,
unmasked, through the data register (44_cursor_glyph.md R195-R197). -/
def execCreateChar (slot p0 p1 p2 p3 p4 p5 p6 p7 : Byte) (s : State) :
    Host.Outcome State Fault Refusal :=
  .next (sendText [p0, p1, p2, p3, p4, p5, p6, p7] (send (cgramCommand slot) false s))

end Sys2Proof.Machine
end

