-- ==== Sys2Proof/Machine/Flags.lean ====
section
/-! DEFINITION. The flag fields of the two shadow registers, their transmitted bytes, and the one
read-modify-write every flag operation is (spec/10_state.md R23, R25; spec/43_flags.md R160). -/

namespace Sys2Proof.Machine

/-- `entry_mode.SH`: shift on write (10_state.md R23). -/
def State.flagSH (s : State) : Bool := s.entryMode.getLsbD bitSH
/-- `entry_mode.ID`: increment direction (10_state.md R23). -/
def State.flagID (s : State) : Bool := s.entryMode.getLsbD bitID
/-- `display_control.B`: cursor blink (10_state.md R25). -/
def State.flagB (s : State) : Bool := s.displayControl.getLsbD bitB
/-- `display_control.C`: cursor visible (10_state.md R25). -/
def State.flagC (s : State) : Bool := s.displayControl.getLsbD bitC
/-- `display_control.D`: display on (10_state.md R25). -/
def State.flagD (s : State) : Bool := s.displayControl.getLsbD bitD

/-- `EM_CMD(S) = 0x04 | S.entry_mode` (10_state.md R23). -/
def State.emCmd (s : State) : Byte := entryModeByte s.entryMode
/-- `DC_CMD(S) = 0x08 | S.display_control` (10_state.md R25). -/
def State.dcCmd (s : State) : Byte := displayControlByte s.displayControl

/-- Write one bit of `entry_mode` (43_flags.md R160). -/
def State.setEM (s : State) (bit : Nat) (v : Bool) : State :=
  { s with entryMode := setBit s.entryMode bit v }
/-- Write one bit of `display_control` (43_flags.md R160). -/
def State.setDC (s : State) (bit : Nat) (v : Bool) : State :=
  { s with displayControl := setBit s.displayControl bit v }
/-- Write `enable_select` (10_state.md R26). -/
def State.setSelect (s : State) (v : Byte) : State := { s with enableSelect := v }

/-- `SetFlagEM(bit, v)`: the shadow first, then the whole register as a command
(43_flags.md R160). -/
def setFlagEM (bit : Nat) (v : Bool) (s : State) : State :=
  let s := s.setEM bit v
  send s.emCmd false s

/-- `SetFlagDC(bit, v)` (43_flags.md R160). -/
def setFlagDC (bit : Nat) (v : Bool) (s : State) : State :=
  let s := s.setDC bit v
  send s.dcCmd false s

end Sys2Proof.Machine
end

