-- ==== Sys2Proof/Machine/FlagOps.lean ====
section
/-! DEFINITION. The flag-register operations (spec/43_flags.md R160-R170). -/

namespace Sys2Proof.Machine

/-- `AUTOSCROLL_ON` sets `SH` (43_flags.md R161). -/
def execAutoscrollOn (s : State) : Host.Outcome State Fault Refusal :=
  .next (setFlagEM bitSH true s)

/-- `AUTOSCROLL_OFF` clears `SH` (43_flags.md R162). -/
def execAutoscrollOff (s : State) : Host.Outcome State Fault Refusal :=
  .next (setFlagEM bitSH false s)

/-- `ENTRY_INC` sets `ID` (43_flags.md R163). -/
def execEntryInc (s : State) : Host.Outcome State Fault Refusal :=
  .next (setFlagEM bitID true s)

/-- `ENTRY_DEC` clears `ID` (43_flags.md R164). -/
def execEntryDec (s : State) : Host.Outcome State Fault Refusal :=
  .next (setFlagEM bitID false s)

/-- `BLINK_ON` sets `B` (43_flags.md R165). -/
def execBlinkOn (s : State) : Host.Outcome State Fault Refusal :=
  .next (setFlagDC bitB true s)

/-- `BLINK_OFF` clears `B` (43_flags.md R166). -/
def execBlinkOff (s : State) : Host.Outcome State Fault Refusal :=
  .next (setFlagDC bitB false s)

/-- `CURSOR_ON` sets `C` (43_flags.md R167). -/
def execCursorOn (s : State) : Host.Outcome State Fault Refusal :=
  .next (setFlagDC bitC true s)

/-- `CURSOR_OFF` clears `C` (43_flags.md R168). -/
def execCursorOff (s : State) : Host.Outcome State Fault Refusal :=
  .next (setFlagDC bitC false s)

/-- `DISPLAY_ON` sets `D` (43_flags.md R169). -/
def execDisplayOn (s : State) : Host.Outcome State Fault Refusal :=
  .next (setFlagDC bitD true s)

/-- `DISPLAY_OFF` clears `D` (43_flags.md R170). -/
def execDisplayOff (s : State) : Host.Outcome State Fault Refusal :=
  .next (setFlagDC bitD false s)

end Sys2Proof.Machine
end

