-- ==== Sys2Proof/Machine/Init.lean ====
section
/-! DEFINITION. `BEGIN`, the initialization handshake (spec/41_init.md). -/

namespace Sys2Proof.Machine

/-- Step 2: the mode-select primitive three times (41_init.md R123). -/
def initModeSelect (s : State) : State :=
  let s := emitDelay usModeSelect1 (initStrobe cmdModeSelect s)
  let s := emitDelay usModeSelect23 (initStrobe cmdModeSelect s)
  emitDelay usModeSelect23 (initStrobe cmdModeSelect s)

/-- Step 3: narrowing, on a 4-bit bus only (41_init.md R124). -/
def initNarrow (s : State) : State :=
  match s.busWidth with
  | .bw8 => s
  | .bw4 => emitDelay usNarrow (initStrobe cmdNarrow s)

/-- `BEGIN` (41_init.md R129): the seven steps in order, from R121 to R128. It works from the
current shadows and writes `enable_select` last (R130). -/
def execBegin (s : State) : Host.Outcome State Fault Refusal :=
  let s := emitDelay usPowerUp s
  let s := initModeSelect s
  let s := initNarrow s
  let s := send s.functionSet false s
  let s := longCmd cmdClear s
  let s := longCmd cmdHome s
  let s := send s.emCmd false s
  let s := send s.dcCmd false s
  .next (s.setSelect selChip0)

end Sys2Proof.Machine
end

