-- ==== Sys2Proof/Machine/Panel.lean ====
section
/-! DEFINITION. Multi-panel selection (spec/46_panel.md R230-R232). -/

namespace Sys2Proof.Machine

/-- `SELECT_LCD n`: chip 0 or chip 1; any other `n` changes nothing (46_panel.md R231). -/
def execSelectLcd (n : Byte) (s : State) : Host.Outcome State Fault Refusal :=
  match panelPattern n with
  | some v => .next (s.setSelect v)
  | none => .next s

/-- `ECHO`: broadcast (46_panel.md R232). -/
def execEcho (s : State) : Host.Outcome State Fault Refusal := .next (s.setSelect selBoth)

end Sys2Proof.Machine
end

