-- ==== Sys2Proof/Machine/Text.lean ====
section
/-! DEFINITION. Text output (spec/45_text.md R210-R212). -/

namespace Sys2Proof.Machine

/-- `WRITE_N`: every byte of the text, whatever its value (45_text.md R211). -/
def execWriteN (text : List Byte) (s : State) : Host.Outcome State Fault Refusal :=
  .next (sendText text s)

/-- `WRITE_UNTIL term`: the payload is the text and then the terminator, which ends the operation
and is not sent (45_text.md R212). -/
def execWriteUntil (term : Byte) (text : List Byte) (s : State) :
    Host.Outcome State Fault Refusal :=
  .next (sendUntil term (text ++ [term]) s)

end Sys2Proof.Machine
end

