-- ==== Sys2Proof/Machine/Dispatch.lean ====
section
/-! DEFINITION. One arm per operation: the operation-level reading of spec/00_scope.md R14, a
function of the state and the operand bytes. It neither reads nor writes the FSM. -/

namespace Sys2Proof.Machine

def exec (i : Instr) (s : State) : Host.Outcome State Fault Refusal :=
  match i with
  | .begin => Sys2Proof.Machine.execBegin s
  | .clear => Sys2Proof.Machine.execClear s
  | .home => Sys2Proof.Machine.execHome s
  | .cursorLeft => Sys2Proof.Machine.execCursorLeft s
  | .cursorRight => Sys2Proof.Machine.execCursorRight s
  | .displayLeft => Sys2Proof.Machine.execDisplayLeft s
  | .displayRight => Sys2Proof.Machine.execDisplayRight s
  | .autoscrollOn => Sys2Proof.Machine.execAutoscrollOn s
  | .autoscrollOff => Sys2Proof.Machine.execAutoscrollOff s
  | .entryInc => Sys2Proof.Machine.execEntryInc s
  | .entryDec => Sys2Proof.Machine.execEntryDec s
  | .blinkOn => Sys2Proof.Machine.execBlinkOn s
  | .blinkOff => Sys2Proof.Machine.execBlinkOff s
  | .cursorOn => Sys2Proof.Machine.execCursorOn s
  | .cursorOff => Sys2Proof.Machine.execCursorOff s
  | .displayOn => Sys2Proof.Machine.execDisplayOn s
  | .displayOff => Sys2Proof.Machine.execDisplayOff s
  | .setCursor line col => Sys2Proof.Machine.execSetCursor line col s
  | .createChar slot p0 p1 p2 p3 p4 p5 p6 p7 => Sys2Proof.Machine.execCreateChar slot p0 p1 p2 p3 p4 p5 p6 p7 s
  | .selectLcd n => Sys2Proof.Machine.execSelectLcd n s
  | .echo => Sys2Proof.Machine.execEcho s
  | .writeN text => Sys2Proof.Machine.execWriteN text s
  | .writeUntil term text => Sys2Proof.Machine.execWriteUntil term text s

end Sys2Proof.Machine
end

