-- ==== Sys2Proof/WellFormed.lean ====
section
/-! DEFINITION. Which terms of `Instr` the encoding can spell (spec/30_encoding.md R72, R74). -/

namespace Sys2Proof

/-- Every operand value is legal (R74, R80); only two formats limit their text. `WRITE_N` counts
it in 16 bits (R76, R87), and the text of `WRITE_UNTIL` holds no byte equal to its terminator
(R72). -/
def Instr.wellFormed : Instr → Bool
  | .begin | .clear | .home | .cursorLeft | .cursorRight | .displayLeft | .displayRight => true
  | .autoscrollOn | .autoscrollOff | .entryInc | .entryDec => true
  | .blinkOn | .blinkOff | .cursorOn | .cursorOff | .displayOn | .displayOff => true
  | .setCursor _ _ => true
  | .createChar _ _ _ _ _ _ _ _ _ => true
  | .selectLcd _ => true
  | .echo => true
  | .writeN text => decide (text.length ≤ 65535)
  | .writeUntil term text => decide (term ∉ text)

/-- `Instr.wellFormed` as a decidable proposition. -/
abbrev Instr.WellFormed (i : Instr) : Prop := i.wellFormed = true

end Sys2Proof
end

