-- ==== Sys2Proof/Decode.lean ====
section
/-! DEFINITION. The decoder over the operation stream, total on any bytes, and the encoder
(spec/30_encoding.md R72, R74-R81). -/

namespace Sys2Proof

/-- What the front of the stream spells. -/
inductive Decoded where
  /-- A whole operation, and the bytes after it. -/
  | op (i : Instr) (rest : List Byte)
  /-- The first byte is not a legal opcode (R80); the bytes after it. -/
  | illegal (b : Byte) (rest : List Byte)
  /-- The stream ends inside an operation, or is empty: the host still owes bytes (R77, R297 of
  70_reset_and_hazards.md). -/
  | incomplete
  deriving DecidableEq, Repr

/-- The first `n` bytes and the rest, where there are `n`. -/
def takeText : Nat → List Byte → Option (List Byte × List Byte)
  | 0, bs => some ([], bs)
  | _ + 1, [] => none
  | n + 1, b :: bs =>
    match takeText n bs with
    | some (text, rest) => some (b :: text, rest)
    | none => none

/-- The bytes before the first byte equal to `term`, and the bytes after it (R76). -/
def takeUntil (term : Byte) : List Byte → Option (List Byte × List Byte)
  | [] => none
  | b :: bs =>
    if b = term then some ([], bs)
    else
      match takeUntil term bs with
      | some (text, rest) => some (b :: text, rest)
      | none => none

/-- The operands of `WRITE_N`: count, then as many text bytes (format FN). -/
def decodeWriteN : List Byte → Decoded
  | lo :: hi :: r =>
    match takeText (textCount lo hi).toNat r with
    | some (text, rest) => .op (.writeN text) rest
    | none => .incomplete
  | _ => .incomplete

/-- The operands of `WRITE_UNTIL`: terminator, text, terminator (format FT). -/
def decodeWriteUntil : List Byte → Decoded
  | term :: r =>
    match takeUntil term r with
    | some (text, rest) => .op (.writeUntil term text) rest
    | none => .incomplete
  | [] => .incomplete

/-- The operands of `SET_CURSOR` (format F2). -/
def decodeSetCursor : List Byte → Decoded
  | line :: col :: r => .op (.setCursor line col) r
  | _ => .incomplete

/-- The operands of `CREATE_CHAR` (format FG). -/
def decodeCreateChar : List Byte → Decoded
  | slot :: p0 :: p1 :: p2 :: p3 :: p4 :: p5 :: p6 :: p7 :: r =>
    .op (.createChar slot p0 p1 p2 p3 p4 p5 p6 p7) r
  | _ => .incomplete

/-- The operand of `SELECT_LCD` (format F1). -/
def decodeSelectLcd : List Byte → Decoded
  | n :: r => .op (.selectLcd n) r
  | [] => .incomplete

/-- The operands of each operation by its format (R72). -/
def decodeOperands (op : Op) (r : List Byte) : Decoded :=
  match op with
  | .begin => .op .begin r
  | .clear => .op .clear r
  | .home => .op .home r
  | .cursorLeft => .op .cursorLeft r
  | .cursorRight => .op .cursorRight r
  | .displayLeft => .op .displayLeft r
  | .displayRight => .op .displayRight r
  | .autoscrollOn => .op .autoscrollOn r
  | .autoscrollOff => .op .autoscrollOff r
  | .entryInc => .op .entryInc r
  | .entryDec => .op .entryDec r
  | .blinkOn => .op .blinkOn r
  | .blinkOff => .op .blinkOff r
  | .cursorOn => .op .cursorOn r
  | .cursorOff => .op .cursorOff r
  | .displayOn => .op .displayOn r
  | .displayOff => .op .displayOff r
  | .setCursor => decodeSetCursor r
  | .createChar => decodeCreateChar r
  | .selectLcd => decodeSelectLcd r
  | .echo => .op .echo r
  | .writeN => decodeWriteN r
  | .writeUntil => decodeWriteUntil r

/-- Decode the front of the stream. Byte 0 is the opcode; illegal opcodes are rejected by name
(R72, R80, R81). -/
def decode : List Byte → Decoded
  | [] => .incomplete
  | b :: r =>
    match Op.ofByte b with
    | some op => decodeOperands op r
    | none => .illegal b r

/-- The opcode of an operation. -/
def Instr.op : Instr → Op
  | .begin => .begin
  | .clear => .clear
  | .home => .home
  | .cursorLeft => .cursorLeft
  | .cursorRight => .cursorRight
  | .displayLeft => .displayLeft
  | .displayRight => .displayRight
  | .autoscrollOn => .autoscrollOn
  | .autoscrollOff => .autoscrollOff
  | .entryInc => .entryInc
  | .entryDec => .entryDec
  | .blinkOn => .blinkOn
  | .blinkOff => .blinkOff
  | .cursorOn => .cursorOn
  | .cursorOff => .cursorOff
  | .displayOn => .displayOn
  | .displayOff => .displayOff
  | .setCursor _ _ => .setCursor
  | .createChar _ _ _ _ _ _ _ _ _ => .createChar
  | .selectLcd _ => .selectLcd
  | .echo => .echo
  | .writeN _ => .writeN
  | .writeUntil _ _ => .writeUntil

/-- The operand bytes of an operation, in stream order (R72). -/
def Instr.operandBytes : Instr → List Byte
  | .begin | .clear | .home | .cursorLeft | .cursorRight | .displayLeft | .displayRight => []
  | .autoscrollOn | .autoscrollOff | .entryInc | .entryDec => []
  | .blinkOn | .blinkOff | .cursorOn | .cursorOff | .displayOn | .displayOff | .echo => []
  | .setCursor line col => [line, col]
  | .createChar slot p0 p1 p2 p3 p4 p5 p6 p7 => [slot, p0, p1, p2, p3, p4, p5, p6, p7]
  | .selectLcd n => [n]
  | .writeN text => countBytes text.length ++ text
  | .writeUntil term text => term :: (text ++ [term])

/-- The words of an operation: its opcode byte, then its operand bytes (R72). -/
def encode (i : Instr) : List Byte :=
  i.op.toByte :: i.operandBytes

/-- The low `n` bytes of `w`, the least significant first: byte `k` is bits `8k+7..8k`. -/
def tableBytes : Nat → Nat → List Byte
  | 0, _ => []
  | n + 1, w => BitVec.ofNat 8 w :: tableBytes n (w / 256)

/-- How many zero bytes make any operation whole whose first bytes are `bs`: ten for the fixed
formats, the count more for `WRITE_N`. -/
def zeroFill : List Byte → Nat
  | _ :: lo :: hi :: _ => 10 + (textCount lo hi).toNat
  | _ :: lo :: _ => 10 + lo.toNat
  | _ => 10

/-- The stream bytes of the opcode-table word `w` of `nbits` bits: its bytes, first byte lowest,
then operand bytes of zeros, cut after the operation they spell. Log 19. -/
def tableStream (nbits w : Nat) : List Byte :=
  let bs := tableBytes ((nbits + 7) / 8) (w % 2 ^ nbits)
  let filled := bs ++ List.replicate (zeroFill bs) 0
  match decode filled with
  | .op _ rest => filled.take (filled.length - rest.length)
  | .illegal b _ => [b]
  | .incomplete => bs

/-- The operation the decoder reads from an opcode-table word. -/
def decodeTableWord (nbits w : Nat) : Option Instr :=
  match decode (tableStream nbits w) with
  | .op i _ => some i
  | .illegal _ _ => none
  | .incomplete => none

end Sys2Proof
end

