-- ==== Sys2Proof/Machine/Fsm.lean ====
section
/-! DEFINITION. The display-control FSM, one transition a `tick`, with the ports of
spec/00_scope.md R10 (spec/10_state.md R30). The statement lists are the pseudocode of the
operations cut at the events; the operation-level meanings in the other files of this folder are
written from the same rules apart from it, and the refinement statement compares the two. -/

namespace Sys2Proof.Machine

/-- Where a statement takes its data byte from, read when the statement executes. -/
inductive DataSrc where
  | lit (b : Byte)
  | functionSet
  | entryMode
  | displayControl
  | cursor (line col : Byte)
  deriving DecidableEq, Repr

/-- The data byte a source gives. -/
def DataSrc.eval (s : State) : DataSrc → Byte
  | .lit b => b
  | .functionSet => s.functionSet
  | .entryMode => s.emCmd
  | .displayControl => s.dcCmd
  | .cursor line col => s.cursorCommand line col

/-- Which part of the data byte a transaction carries (40_transaction.md R105, R106). -/
inductive Part where
  | whole
  | high
  | low
  deriving DecidableEq, Repr

/-- The data on the bus for a part of a byte. -/
def Part.of (d : Byte) : Part → Byte
  | .whole => d
  | .high => highNibble d
  | .low => lowNibble d

/-- A statement of an operation's pseudocode (10_state.md R30, transition 3). -/
inductive Stmt where
  /-- `emit Bus(c0, d)`, or `emit Bus(c0 | S.enable_select, d)` with the strobe high. -/
  | bus (rs strobeHigh : Bool) (src : DataSrc) (part : Part)
  /-- `emit Delay(us)`. -/
  | delay (us : Micros)
  /-- An assignment to one bit of `S.entry_mode`. -/
  | setEM (bit : Nat) (v : Bool)
  /-- An assignment to one bit of `S.display_control`. -/
  | setDC (bit : Nat) (v : Bool)
  /-- An assignment to `S.enable_select`. -/
  | setSelect (v : Byte)
  /-- A point that needs a payload byte. -/
  | awaitPayload
  deriving DecidableEq, Repr

/-- The statements of one `Strobe` (40_transaction.md R101). -/
def strobeStmts (rs : Bool) (src : DataSrc) (part : Part) : List Stmt :=
  [.bus rs false src part, .bus rs true src part, .bus rs false src part]

/-- The statements of one `Send` (40_transaction.md R104). -/
def sendStmts (bw : BusWidth) (src : DataSrc) (rs : Bool) : List Stmt :=
  match bw with
  | .bw8 => strobeStmts rs src .whole ++ [.delay (usSettle rs)]
  | .bw4 =>
    strobeStmts rs src .high ++ [.delay usNibble]
      ++ strobeStmts rs src .low ++ [.delay (usSettle rs)]

/-- The statements of `LongCmd` (40_transaction.md R111). -/
def longStmts (bw : BusWidth) (c : Byte) : List Stmt :=
  sendStmts bw (.lit c) false ++ [.delay usLong]

/-- The statements of `InitStrobe(d); emit Delay(us)` (41_init.md R122-R124). -/
def initStmts (d : Byte) (us : Micros) : List Stmt :=
  strobeStmts false (.lit d) .whole ++ [.delay us]

/-- The statements of `BEGIN` (41_init.md R129). -/
def beginStmts (bw : BusWidth) : List Stmt :=
  [.delay usPowerUp]
    ++ initStmts cmdModeSelect usModeSelect1
    ++ initStmts cmdModeSelect usModeSelect23
    ++ initStmts cmdModeSelect usModeSelect23
    ++ (match bw with
        | .bw8 => []
        | .bw4 => initStmts cmdNarrow usNarrow)
    ++ sendStmts bw .functionSet false
    ++ longStmts bw cmdClear
    ++ longStmts bw cmdHome
    ++ sendStmts bw .entryMode false
    ++ sendStmts bw .displayControl false
    ++ [.setSelect selChip0]

/-- The statements of `SetFlagEM` (43_flags.md R160). -/
def flagEMStmts (bw : BusWidth) (bit : Nat) (v : Bool) : List Stmt :=
  .setEM bit v :: sendStmts bw .entryMode false

/-- The statements of `SetFlagDC` (43_flags.md R160). -/
def flagDCStmts (bw : BusWidth) (bit : Nat) (v : Bool) : List Stmt :=
  .setDC bit v :: sendStmts bw .displayControl false

/-- The statements of `SET_CURSOR` after its header (44_cursor_glyph.md R191). Here and below, a
header of another length cannot be reached (log 20). -/
def setCursorStmts (bw : BusWidth) : List Byte → List Stmt
  | [line, col] => if cursorInRange line col then sendStmts bw (.cursor line col) false else []
  | _ => []

/-- The statements of `CREATE_CHAR` from its header to the first payload byte
(44_cursor_glyph.md R195). -/
def createCharStmts (bw : BusWidth) : List Byte → List Stmt
  | [slot] => sendStmts bw (.lit (cgramCommand slot)) false ++ [.awaitPayload]
  | _ => []

/-- The statements of `SELECT_LCD` after its header (46_panel.md R231). -/
def selectLcdStmts : List Byte → List Stmt
  | [n] =>
    match panelPattern n with
    | some v => [.setSelect v]
    | none => []
  | _ => []

/-- The statements of `WRITE_N` from its header to the first payload byte; none is awaited for
an empty text (45_text.md R211). -/
def writeNStmts : List Byte → List Stmt
  | [lo, hi] => if textCount lo hi = 0 then [] else [.awaitPayload]
  | _ => []

/-- The statement list of an operation from its header to its end or its first payload byte. -/
def headStmts (bw : BusWidth) (op : Op) (hdr : List Byte) : List Stmt :=
  match op with
  | .begin => beginStmts bw
  | .clear => longStmts bw cmdClear
  | .home => longStmts bw cmdHome
  | .cursorLeft => sendStmts bw (.lit cmdCursorLeft) false
  | .cursorRight => sendStmts bw (.lit cmdCursorRight) false
  | .displayLeft => sendStmts bw (.lit cmdDisplayLeft) false
  | .displayRight => sendStmts bw (.lit cmdDisplayRight) false
  | .autoscrollOn => flagEMStmts bw bitSH true
  | .autoscrollOff => flagEMStmts bw bitSH false
  | .entryInc => flagEMStmts bw bitID true
  | .entryDec => flagEMStmts bw bitID false
  | .blinkOn => flagDCStmts bw bitB true
  | .blinkOff => flagDCStmts bw bitB false
  | .cursorOn => flagDCStmts bw bitC true
  | .cursorOff => flagDCStmts bw bitC false
  | .displayOn => flagDCStmts bw bitD true
  | .displayOff => flagDCStmts bw bitD false
  | .setCursor => setCursorStmts bw hdr
  | .createChar => createCharStmts bw hdr
  | .selectLcd => selectLcdStmts hdr
  | .echo => [.setSelect selBoth]
  | .writeN => writeNStmts hdr
  | .writeUntil => [.awaitPayload]

/-- The statement list that consumes one payload byte, up to the next one or the end of the
operation: with `bytes left`, `left` more are expected after it (44_cursor_glyph.md R195,
45_text.md R211, R212). -/
def payloadStmts (bw : BusWidth) (pay : Payload) (b : Byte) : List Stmt :=
  match pay with
  | .none => []
  | .bytes left => sendStmts bw (.lit b) true ++ (if left = 0 then [] else [.awaitPayload])
  | .upTo term => if b = term then [] else sendStmts bw (.lit b) true ++ [.awaitPayload]

/-- The statement list a position lies in. -/
def stmtsAt (bw : BusWidth) (p : ExecPos) : List Stmt :=
  match p.cur with
  | none => headStmts bw p.op p.hdr
  | some b => payloadStmts bw p.pay b

/-- The payload an operation expects after its header (30_encoding.md R75). -/
def initPayload (op : Op) (hdr : List Byte) : Payload :=
  match op, hdr with
  | .createChar, _ => .bytes 8
  | .writeN, [lo, hi] => .bytes (textCount lo hi).toNat
  | .writeUntil, [term] => .upTo term
  | _, _ => .none

/-- The payload still expected once one more byte is accepted. -/
def Payload.afterByte : Payload → Payload
  | .none => .none
  | .bytes left => .bytes (left - 1)
  | .upTo term => .upTo term

/-- The next position in the same statement list. -/
def ExecPos.succ (p : ExecPos) : ExecPos := { p with k := p.k + 1 }

/-- Go to a state of the FSM. -/
def State.goto (s : State) (f : Fsm) : State := { s with fsm := f }

/-- Enter `EXEC(op, ·, 0)` (10_state.md R30, transitions 1 and 2). -/
def enterExec (op : Op) (hdr : List Byte) (s : State) : State :=
  s.goto (.exec ⟨op, hdr, initPayload op hdr, none, 0⟩)

/-- `IDLE` accepts a byte (10_state.md R30, transition 1). -/
def acceptOpcode (b : Byte) (s : State) : State :=
  match Op.ofByte b with
  | none => raiseIllegalOp s
  | some op => if op.headerLen = 0 then enterExec op [] s else s.goto (.hdr op [])

/-- `HDR(op, got)` accepts a byte (10_state.md R30, transition 2). -/
def acceptHeader (op : Op) (got : List Byte) (b : Byte) (s : State) : State :=
  if (got ++ [b]).length = op.headerLen then enterExec op (got ++ [b]) s
  else s.goto (.hdr op (got ++ [b]))

/-- `PAYLOAD(op, ctx)` accepts a byte (10_state.md R30, transition 4). -/
def acceptPayload (op : Op) (hdr : List Byte) (pay : Payload) (b : Byte) (s : State) : State :=
  s.goto (.exec ⟨op, hdr, pay.afterByte, some b, 0⟩)

/-- The control byte of a bus statement (30_encoding.md R84). -/
def Stmt.ctrl (s : State) (rs strobeHigh : Bool) : Byte :=
  if strobeHigh then ctrlByte rs ||| s.enableSelect else ctrlByte rs

/-- `EXEC` with the statements still to execute: assignments take no step, and the first
statement that is none ends the step (10_state.md R30, transition 3). Logs 10 and 11. -/
def execStmts : List Stmt → ExecPos → State → State
  | [], _, s => s.goto .idle
  | .bus rs hi src part :: _, p, s =>
    (emitBus (Stmt.ctrl s rs hi) (part.of (src.eval s)) s).goto (.exec p.succ)
  | .delay us :: _, p, s => (emitDelay us s).goto (.wait us p.succ)
  | .setEM bit v :: r, p, s => execStmts r p.succ (s.setEM bit v)
  | .setDC bit v :: r, p, s => execStmts r p.succ (s.setDC bit v)
  | .setSelect v :: r, p, s => execStmts r p.succ (s.setSelect v)
  | .awaitPayload :: _, p, s => s.goto (.payload p.op p.hdr p.pay)

/-- The bus write of the step that executes these statements, if it makes one. -/
def busOf : List Stmt → State → Option (Byte × Byte)
  | [], _ => none
  | .bus rs hi src part :: _, s => some (Stmt.ctrl s rs hi, part.of (src.eval s))
  | .delay _ :: _, _ => none
  | .setEM bit v :: r, s => busOf r (s.setEM bit v)
  | .setDC bit v :: r, s => busOf r (s.setDC bit v)
  | .setSelect v :: r, s => busOf r (s.setSelect v)
  | .awaitPayload :: _, _ => none

/-- The statements still to execute from a position. -/
def todo (bw : BusWidth) (p : ExecPos) : List Stmt := (stmtsAt bw p).drop p.k

/-- The input ports in one step (00_scope.md R10). -/
structure PortIn where
  rst : Bool
  cfg : Cfg
  opData : Byte
  opValid : Bool
  dlyDone : Bool
  deriving DecidableEq, Repr

/-- The output ports in one step (00_scope.md R10). `bus` is the pair `bus_ctrl`, `bus_data`
while `bus_we = 1`, and `dly` is `dly_us` while `dly_req = 1`; what those lines carry otherwise
the spec does not say. Log 8. -/
structure PortOut where
  opReady : Bool
  bus : Option (Byte × Byte)
  dly : Option Micros
  busy : Bool
  fault : Bool
  deriving DecidableEq, Repr

/-- The outputs of each FSM state (10_state.md R30, R31). In a step with `rst = 1` no byte is
accepted and nothing is emitted (60_exceptions.md R254, 70_reset_and_hazards.md R280). Log 7. -/
def outputs (inp : PortIn) (s : State) : PortOut where
  opReady :=
    match s.fsm with
    | .idle => !inp.rst
    | .hdr _ _ => !inp.rst
    | .payload _ _ _ => !inp.rst
    | .exec _ => false
    | .wait _ _ => false
    | .fault => false
  bus :=
    match s.fsm with
    | .exec p => if inp.rst then none else busOf (todo s.busWidth p) s
    | .idle => none
    | .hdr _ _ => none
    | .payload _ _ _ => none
    | .wait _ _ => none
    | .fault => none
  dly :=
    match s.fsm with
    | .wait us _ => if inp.rst then none else some us
    | .idle => none
    | .hdr _ _ => none
    | .payload _ _ _ => none
    | .exec _ => none
    | .fault => none
  busy := decide (s.fsm ≠ .idle)
  fault := decide (s.fsm = .fault)

/-- One step of the block: exactly one transition of the FSM (10_state.md R30). A byte is
accepted when `op_ready` and `op_valid` are both up (30_encoding.md R71). -/
def tick (inp : PortIn) (s : State) : State :=
  if inp.rst then applyReset inp.cfg s
  else
    match s.fsm with
    | .idle => if inp.opValid then acceptOpcode inp.opData s else s
    | .hdr op got => if inp.opValid then acceptHeader op got inp.opData s else s
    | .exec p => execStmts (todo s.busWidth p) p s
    | .payload op hdr pay => if inp.opValid then acceptPayload op hdr pay inp.opData s else s
    | .wait _ ret => if inp.dlyDone then s.goto (.exec ret) else s
    | .fault => s

/-- A byte is accepted in this step (30_encoding.md R71). -/
def accepts (inp : PortIn) (s : State) : Bool := (outputs inp s).opReady && inp.opValid

/-- The state after a run of steps with the given inputs. -/
def tickRun : List PortIn → State → State
  | [], s => s
  | inp :: rest, s => tickRun rest (tick inp s)

/-- The stream bytes the block accepts over a run of steps, in order. -/
def acceptedBytes : List PortIn → State → List Byte
  | [], _ => []
  | inp :: rest, s =>
    if accepts inp s then inp.opData :: acceptedBytes rest (tick inp s)
    else acceptedBytes rest (tick inp s)

/-- The input ports as the pending inputs in State set them: the next offered byte, the reset
request, and a Delay Source that acknowledges. Log 4. -/
def hostPorts (s : State) : PortIn where
  rst := s.rst.isSome
  cfg := s.rst.getD Config.resetCfg
  opData := s.opStream.headD 0
  opValid := !s.opStream.isEmpty
  dlyDone := true

/-- Take the accepted byte, if one is accepted, off the offered stream (30_encoding.md R71). -/
def takeAccepted (s : State) : State :=
  if accepts (hostPorts s) s then
    { s with opStream := s.opStream.tail }
  else s

/-- One FSM transition under the pending inputs in State. -/
def hostTick (s : State) : State := tick (hostPorts s) (takeAccepted s)

/-- So many FSM transitions under the pending inputs. -/
def hostTicks : Nat → State → State
  | 0, s => s
  | n + 1, s => hostTicks n (hostTick s)

/-- What the block does next at an operation boundary: the whole operation on offer and the bytes
after it, if the FSM is in `IDLE`, no reset is asserted and the offered bytes spell one
(00_scope.md R14). -/
def nextOperation (s : State) : Option (Instr × List Byte) :=
  match s.rst, s.fsm with
  | none, .idle =>
    match decode s.opStream with
    | .op i rest => some (i, rest)
    | .illegal _ _ => none
    | .incomplete => none
  | _, _ => none

end Sys2Proof.Machine
end

