-- ==== Sys2Proof/Machine/Step.lean ====
section
/-! DEFINITION. The step of the machine: a whole operation where one is on offer in `IDLE`
(spec/00_scope.md R14), else one transition of the FSM (spec/10_state.md R30). -/

namespace Sys2Proof.Machine

/-- One step. Logs 3 and 18. In `IDLE` with no reset asserted and a whole operation on offer, the
operation runs to completion (R14). In every other case the FSM takes one transition: it takes
the reset, the illegal opcode, the first bytes of an operation the host has not finished
offering, or it holds (R30, 70_reset_and_hazards.md R297). -/
def step (s : State) : Host.Outcome State Fault Refusal :=
  match nextOperation s with
  | some (i, rest) => exec i { s with opStream := rest }
  | none => .next (hostTick s)

/-- `s` with the operation of an opcode-table word on offer at an operation boundary, so that the
next step runs it: the offered stream is its bytes, the FSM is in `IDLE` without the fault mark,
and no reset is asserted. Log 19. -/
def State.withFetchWord (s : State) (nbits w : Nat) : State :=
  { s with opStream := tableStream nbits w, fsm := .idle, fault := false, rst := none }

end Sys2Proof.Machine
end

