-- ==== Sys2Proof/Machine/Asm.lean ====
section
/-! DEFINITION. The assembler of the spec: from a line of text to the bytes of an operation
(spec/30_encoding.md R86-R90). It is the host's tool and no part of the block. Points of the text
form the spec does not fix: logs 17 and 21. -/

namespace Sys2Proof.Machine

/-- An assembly error (30_encoding.md R87, R88, R90). -/
inductive AsmError where
  /-- A character that begins no token, or an unfinished string or character literal. -/
  | badToken
  /-- A word in operand position that is no number. -/
  | badNumber
  /-- A number outside 0-255 (R88). -/
  | numberRange
  /-- A character that is no ASCII character (R88). -/
  | notAscii
  /-- The line is not a label, a mnemonic and operands separated by commas. -/
  | badLine
  /-- No operation has this mnemonic. -/
  | unknownMnemonic
  /-- Another number of operands than the mnemonic takes (R87). -/
  | operandCount
  /-- A string where a number is required: in `CREATE_CHAR` by R87, for `n`, `line`, `col` and
  `term` by the model's choice (log 21). -/
  | operandKind
  /-- A text of more than 65535 bytes (R87). -/
  | textTooLong
  /-- An item byte equal to the terminator (R87, R90). -/
  | terminatorInText
  deriving DecidableEq, Repr

/-- An operand: a number or a string (R86). -/
inductive Operand where
  | num (b : Byte)
  | str (bytes : List Byte)
  deriving DecidableEq, Repr

/-- The bytes an item stands for, with no implied terminator (R88). -/
def Operand.bytes : Operand → List Byte
  | .num b => [b]
  | .str bs => bs

/-- The bytes of the items of a text, in order (R87). -/
def itemBytes (items : List Operand) : List Byte := items.flatMap Operand.bytes

/-- An operand that must be a number. R87 says so of the nine of `CREATE_CHAR`; that a string, even
of one character, does not stand for `n`, `line`, `col` or `term` is a DESIGN CHOICE (log 21). -/
def Operand.number : Operand → Except AsmError Byte
  | .num b => .ok b
  | .str _ => .error .operandKind

/-- The operands that must all be numbers. -/
def numbers : List Operand → Except AsmError (List Byte)
  | [] => .ok []
  | o :: os =>
    match o.number, numbers os with
    | .ok b, .ok bs => .ok (b :: bs)
    | .error e, _ => .error e
    | .ok _, .error e => .error e

/-- A mnemonic of format F0 takes no operand. -/
def noOperand (i : Instr) : List Operand → Except AsmError Instr
  | [] => .ok i
  | _ :: _ => .error .operandCount

/-- `WRITE_N item {, item}`, or bare (R87). -/
def asmWriteN (items : List Operand) : Except AsmError Instr :=
  if (itemBytes items).length ≤ 65535 then .ok (.writeN (itemBytes items)) else .error .textTooLong

/-- The text of `WRITE_UNTIL` and `PRINT`: at least one item, and no byte equal to the terminator
(R87, R90). -/
def asmUntil (term : Byte) : List Operand → Except AsmError Instr
  | [] => .error .operandCount
  | items@(_ :: _) =>
    if term ∈ itemBytes items then .error .terminatorInText
    else .ok (.writeUntil term (itemBytes items))

/-- `WRITE_UNTIL term, item {, item}` (R87). -/
def asmWriteUntil : List Operand → Except AsmError Instr
  | [] => .error .operandCount
  | t :: items =>
    match t.number with
    | .ok term => asmUntil term items
    | .error e => .error e

/-- `SET_CURSOR line, col` (R87). -/
def asmSetCursor (os : List Operand) : Except AsmError Instr :=
  match numbers os with
  | .ok [line, col] => .ok (.setCursor line col)
  | .ok _ => .error .operandCount
  | .error e => .error e

/-- `CREATE_CHAR slot, p0, ..., p7`: exactly nine numbers (R87). -/
def asmCreateChar (os : List Operand) : Except AsmError Instr :=
  match numbers os with
  | .ok [slot, p0, p1, p2, p3, p4, p5, p6, p7] => .ok (.createChar slot p0 p1 p2 p3 p4 p5 p6 p7)
  | .ok _ => .error .operandCount
  | .error e => .error e

/-- `SELECT_LCD n` (R87). -/
def asmSelectLcd (os : List Operand) : Except AsmError Instr :=
  match numbers os with
  | .ok [n] => .ok (.selectLcd n)
  | .ok _ => .error .operandCount
  | .error e => .error e

/-- The operation a mnemonic and its operands spell (R87). -/
def assembleOp (op : Op) (os : List Operand) : Except AsmError Instr :=
  match op with
  | .begin => noOperand .begin os
  | .clear => noOperand .clear os
  | .home => noOperand .home os
  | .cursorLeft => noOperand .cursorLeft os
  | .cursorRight => noOperand .cursorRight os
  | .displayLeft => noOperand .displayLeft os
  | .displayRight => noOperand .displayRight os
  | .autoscrollOn => noOperand .autoscrollOn os
  | .autoscrollOff => noOperand .autoscrollOff os
  | .entryInc => noOperand .entryInc os
  | .entryDec => noOperand .entryDec os
  | .blinkOn => noOperand .blinkOn os
  | .blinkOff => noOperand .blinkOff os
  | .cursorOn => noOperand .cursorOn os
  | .cursorOff => noOperand .cursorOff os
  | .displayOn => noOperand .displayOn os
  | .displayOff => noOperand .displayOff os
  | .setCursor => asmSetCursor os
  | .createChar => asmCreateChar os
  | .selectLcd => asmSelectLcd os
  | .echo => noOperand .echo os
  | .writeN => asmWriteN os
  | .writeUntil => asmWriteUntil os

/-- The words that stand where a mnemonic stands: the 23 mnemonics, the second spelling `RESET`
(R89) and the pseudo-instruction `PRINT` (R90). -/
inductive Mnemonic where
  | op (o : Op)
  | print
  deriving DecidableEq, Repr

/-- The spelling of each mnemonic (R82, R89, R90). -/
def mnemonicTable : List (String × Mnemonic) :=
  [("BEGIN", .op .begin), ("CLEAR", .op .clear), ("HOME", .op .home), ("RESET", .op .home),
   ("CURSOR_LEFT", .op .cursorLeft), ("CURSOR_RIGHT", .op .cursorRight),
   ("DISPLAY_LEFT", .op .displayLeft), ("DISPLAY_RIGHT", .op .displayRight)]
  ++ [("AUTOSCROLL_ON", .op .autoscrollOn), ("AUTOSCROLL_OFF", .op .autoscrollOff),
   ("ENTRY_INC", .op .entryInc), ("ENTRY_DEC", .op .entryDec),
   ("BLINK_ON", .op .blinkOn), ("BLINK_OFF", .op .blinkOff),
   ("CURSOR_ON", .op .cursorOn), ("CURSOR_OFF", .op .cursorOff)]
  ++ [("DISPLAY_ON", .op .displayOn), ("DISPLAY_OFF", .op .displayOff),
   ("SET_CURSOR", .op .setCursor), ("CREATE_CHAR", .op .createChar),
   ("SELECT_LCD", .op .selectLcd), ("ECHO", .op .echo),
   ("WRITE_N", .op .writeN), ("WRITE_UNTIL", .op .writeUntil), ("PRINT", .print)]

/-- The mnemonic a word spells. -/
def mnemonicOf (word : List Char) : Option Mnemonic :=
  (mnemonicTable.find? (fun e => e.1.toList = word)).map Prod.snd

/-- A mnemonic with its operands; `PRINT items` is `WRITE_UNTIL 0x00, items` (R90). -/
def assembleMnemonic (m : Mnemonic) (os : List Operand) : Except AsmError Instr :=
  match m with
  | .op o => assembleOp o os
  | .print => asmUntil 0x00 os

/-- A token of a line. -/
inductive Token where
  /-- A label, a mnemonic or a decimal or hexadecimal number. -/
  | word (cs : List Char)
  /-- A character literal. -/
  | chr (b : Byte)
  /-- A string. -/
  | str (bytes : List Byte)
  | comma
  | colon
  deriving DecidableEq, Repr

/-- Where the scan of a line stands. -/
inductive LexMode where
  | start
  | comment
  /-- Inside a word. -/
  | word (cs : List Char)
  /-- Inside a string. -/
  | str (bytes : List Byte)
  /-- After a backslash in a string. -/
  | esc (bytes : List Byte)
  /-- After backslash-x in a string. -/
  | hex (bytes : List Byte)
  /-- After the first digit of backslash-x in a string. -/
  | hexLow (bytes : List Byte) (high : Nat)
  /-- After the opening quote of a character literal. -/
  | chr
  /-- Before the closing quote of a character literal. -/
  | chrEnd (b : Byte)
  deriving DecidableEq, Repr

/-- Characters of labels, mnemonics and numbers. -/
def isWordChar (c : Char) : Bool := c.isAlphanum || c.toNat == 95

/-- The ASCII code of a character (R88). -/
def asciiByte (c : Char) : Except AsmError Byte :=
  if c.toNat < 128 then .ok (BitVec.ofNat 8 c.toNat) else .error .notAscii

/-- The value of a hexadecimal digit. -/
def hexDigit (c : Char) : Option Nat :=
  if c.isDigit then some (c.toNat - 48)
  else if 65 ≤ c.toNat ∧ c.toNat ≤ 70 then some (c.toNat - 55)
  else if 97 ≤ c.toNat ∧ c.toNat ≤ 102 then some (c.toNat - 87)
  else none

/-- What a character between tokens begins: 44 is a comma, 58 a colon, 59 a semicolon, 34 and 39
the two quotes. -/
def lexStart (c : Char) : Except AsmError (List Token × LexMode) :=
  if c.isWhitespace then .ok ([], .start)
  else if isWordChar c then .ok ([], .word [c])
  else
    match c.toNat with
    | 44 => .ok ([.comma], .start)
    | 58 => .ok ([.colon], .start)
    | 59 => .ok ([], .comment)
    | 34 => .ok ([], .str [])
    | 39 => .ok ([], .chr)
    | _ => .error .badToken

/-- The character after a backslash: `\0`, `\\`, `\"` or `\x` (R86). -/
def lexEscape (bytes : List Byte) (c : Char) : Except AsmError LexMode :=
  match c.toNat with
  | 48 => .ok (.str (bytes ++ [0x00]))
  | 92 => .ok (.str (bytes ++ [0x5C]))
  | 34 => .ok (.str (bytes ++ [0x22]))
  | 120 => .ok (.hex bytes)
  | _ => .error .badToken

/-- One character of the scan: the tokens it ends and the mode after it (R86). -/
def lexChar (m : LexMode) (c : Char) : Except AsmError (List Token × LexMode) :=
  match m with
  | .start => lexStart c
  | .comment => .ok ([], .comment)
  | .word cs =>
    if isWordChar c then .ok ([], .word (cs ++ [c]))
    else (lexStart c).map (fun r => (.word cs :: r.1, r.2))
  | .str bytes =>
    if c.toNat = 34 then .ok ([.str bytes], .start)
    else if c.toNat = 92 then .ok ([], .esc bytes)
    else (asciiByte c).map (fun b => ([], .str (bytes ++ [b])))
  | .esc bytes => (lexEscape bytes c).map (fun m' => ([], m'))
  | .hex bytes =>
    match hexDigit c with
    | some d => .ok ([], .hexLow bytes d)
    | none => .error .badToken
  | .hexLow bytes high =>
    match hexDigit c with
    | some d => .ok ([], .str (bytes ++ [BitVec.ofNat 8 (16 * high + d)]))
    | none => .error .badToken
  | .chr => (asciiByte c).map (fun b => ([], .chrEnd b))
  | .chrEnd b => if c.toNat = 39 then .ok ([.chr b], .start) else .error .badToken

/-- The end of the line. -/
def lexEnd : LexMode → Except AsmError (List Token)
  | .start => .ok []
  | .comment => .ok []
  | .word cs => .ok [.word cs]
  | .str _ => .error .badToken
  | .esc _ => .error .badToken
  | .hex _ => .error .badToken
  | .hexLow _ _ => .error .badToken
  | .chr => .error .badToken
  | .chrEnd _ => .error .badToken

/-- The tokens of a line, scanned from a mode. -/
def lex : LexMode → List Char → Except AsmError (List Token)
  | m, [] => lexEnd m
  | m, c :: cs =>
    match lexChar m c with
    | .error e => .error e
    | .ok (toks, m') => (lex m' cs).map (fun rest => toks ++ rest)

/-- The value of a decimal numeral read so far, digit by digit. -/
def decimalValue : Nat → List Char → Option Nat
  | acc, [] => some acc
  | acc, c :: cs => if c.isDigit then decimalValue (10 * acc + (c.toNat - 48)) cs else none

/-- A number: decimal, or `0x` and two hexadecimal digits (R86, R88). -/
def numberOf (cs : List Char) : Except AsmError Byte :=
  match cs with
  | [] => .error .badNumber
  | ['0', 'x', h, l] =>
    match hexDigit h, hexDigit l with
    | some a, some b => .ok (BitVec.ofNat 8 (16 * a + b))
    | _, _ => .error .badNumber
  | _ =>
    match decimalValue 0 cs with
    | some n => if n ≤ 255 then .ok (BitVec.ofNat 8 n) else .error .numberRange
    | none => .error .badNumber

/-- The operand a token stands for. -/
def operandOf : Token → Except AsmError Operand
  | .word cs => (numberOf cs).map .num
  | .chr b => .ok (.num b)
  | .str bs => .ok (.str bs)
  | .comma => .error .badLine
  | .colon => .error .badLine

/-- The operands after a comma. -/
def moreOperands : List Token → Except AsmError (List Operand)
  | [] => .ok []
  | .comma :: t :: rest =>
    match operandOf t, moreOperands rest with
    | .ok o, .ok os => .ok (o :: os)
    | .error e, _ => .error e
    | .ok _, .error e => .error e
  | _ => .error .badLine

/-- `[operand {',' operand}]` (R86). -/
def operands : List Token → Except AsmError (List Operand)
  | [] => .ok []
  | t :: rest => moreOperands (.comma :: t :: rest)

/-- `[mnemonic [operands]]` (R86). -/
def assembleBody : List Token → Except AsmError (Option Instr)
  | [] => .ok none
  | .word cs :: rest =>
    match mnemonicOf cs, operands rest with
    | none, _ => .error .unknownMnemonic
    | some m, .ok os => (assembleMnemonic m os).map some
    | some _, .error e => .error e
  | _ => .error .badLine

/-- `[label ':'] [mnemonic [operands]]`; a label is a comment for the reader (R86). -/
def assembleTokens : List Token → Except AsmError (Option Instr)
  | .word _ :: .colon :: rest => assembleBody rest
  | toks => assembleBody toks

/-- The operation a line spells, if it spells one (R86). -/
def assembleLine (line : String) : Except AsmError (Option Instr) :=
  match lex .start line.toList with
  | .ok toks => assembleTokens toks
  | .error e => .error e

/-- The operations a program spells, line by line. -/
def assemble : List String → Except AsmError (List Instr)
  | [] => .ok []
  | l :: ls =>
    match assembleLine l, assemble ls with
    | .ok (some i), .ok is => .ok (i :: is)
    | .ok none, .ok is => .ok is
    | .error e, _ => .error e
    | .ok _, .error e => .error e

/-- The bytes of a sequence of operations: the operation stream (R70). -/
def encodeAll (is : List Instr) : List Byte := is.flatMap encode

end Sys2Proof.Machine
end

