-- ==== Sys2Proof/Machine/Trace.lean ====
section
/-! DEFINITION. What the trace says: the event lists of the transaction primitives, counts and
durations, and what a controller chip latches (spec/00_scope.md R7; spec/40_transaction.md R101,
R103, R104, R109, R111; spec/70_reset_and_hazards.md R299). -/

namespace Sys2Proof.Machine

/-- The three events of one `Strobe` (40_transaction.md R101). -/
def strobeEvents (sel : Byte) (rs : Bool) (d : Byte) : List Event :=
  [.bus (ctrlByte rs) d, .bus (ctrlByte rs ||| sel) d, .bus (ctrlByte rs) d]

/-- The events of one `Send` (40_transaction.md R104). -/
def sendEvents (bw : BusWidth) (sel d : Byte) (rs : Bool) : List Event :=
  match bw with
  | .bw8 => strobeEvents sel rs d ++ [.delay (usSettle rs)]
  | .bw4 =>
    strobeEvents sel rs (highNibble d) ++ [.delay usNibble]
      ++ strobeEvents sel rs (lowNibble d) ++ [.delay (usSettle rs)]

/-- The events of one `LongCmd` (40_transaction.md R111). -/
def longEvents (bw : BusWidth) (sel c : Byte) : List Event :=
  sendEvents bw sel c false ++ [.delay usLong]

/-- The events of the data `Send`s of a text (45_text.md R211). -/
def textEvents (bw : BusWidth) (sel : Byte) (text : List Byte) : List Event :=
  text.flatMap (fun b => sendEvents bw sel b true)

/-- The durations of the delay events, in order. -/
def delays : List Event → List Micros
  | [] => []
  | .bus _ _ :: evs => delays evs
  | .delay us :: evs => us :: delays evs

/-- The number of bus events. -/
def busCount : List Event → Nat
  | [] => 0
  | .bus _ _ :: evs => busCount evs + 1
  | .delay _ :: evs => busCount evs

/-- The sum of the delay durations: the least time the events take (70_reset_and_hazards.md
R299). -/
def totalDelay : List Event → Nat
  | [] => 0
  | .bus _ _ :: evs => totalDelay evs
  | .delay us :: evs => us.toNat + totalDelay evs

/-- The least time of each operation in microseconds, by bus width: the table of
70_reset_and_hazards.md R299. -/
def minDuration (bw : BusWidth) (i : Instr) : Nat :=
  let pick (on8 on4 : Nat) : Nat :=
    match bw with
    | .bw8 => on8
    | .bw4 => on4
  match i with
  | .begin => pick 62700 62745
  | .clear => pick 1640 1641
  | .home => pick 1640 1641
  | .cursorLeft | .cursorRight | .displayLeft | .displayRight => pick 40 41
  | .autoscrollOn | .autoscrollOff | .entryInc | .entryDec => pick 40 41
  | .blinkOn | .blinkOff | .cursorOn | .cursorOff | .displayOn | .displayOff => pick 40 41
  | .setCursor line col => if cursorInRange line col then pick 40 41 else 0
  | .createChar _ _ _ _ _ _ _ _ _ => pick 56 65
  | .writeN text => pick (2 * text.length) (3 * text.length)
  | .writeUntil _ text => pick (2 * text.length) (3 * text.length)
  | .selectLcd _ => 0
  | .echo => 0

/-- One of the two controller chips (60_exceptions.md R260). -/
inductive Chip where
  | chip0
  | chip1
  deriving DecidableEq, Repr

/-- What a chip latches: the data byte on the lines, and RS with it (40_transaction.md R103). -/
structure Latch where
  chip : Chip
  rs : Bool
  data : Byte
  deriving DecidableEq, Repr

/-- The control and data lines as the last bus write left them. -/
structure Lines where
  ctrl : Byte
  data : Byte
  deriving DecidableEq, Repr

/-- The EN bit of a chip in a control byte: EN1 in bit 2, EN2 in bit 3 (30_encoding.md R84). -/
def Chip.enabled (c : Chip) (ctrl : Byte) : Bool :=
  match c with
  | .chip0 => ctrl.getLsbD 2
  | .chip1 => ctrl.getLsbD 3

/-- A chip latches what the lines held when its enable line falls (40_transaction.md R103).
Log 15. -/
def latchOn (c : Chip) (was : Lines) (ctrl : Byte) : List Latch :=
  if c.enabled was.ctrl && !c.enabled ctrl then [⟨c, was.ctrl.getLsbD 0, was.data⟩] else []

/-- What the chips latch over a run of events that starts with the given lines
(40_transaction.md R103). -/
def latches : Lines → List Event → List Latch
  | _, [] => []
  | was, .delay _ :: evs => latches was evs
  | was, .bus c d :: evs =>
    latchOn .chip0 was c ++ latchOn .chip1 was c ++ latches ⟨c, d⟩ evs

/-- The lines after a run of events. -/
def linesAfter : Lines → List Event → Lines
  | was, [] => was
  | was, .delay _ :: evs => linesAfter was evs
  | _, .bus c d :: evs => linesAfter ⟨c, d⟩ evs

end Sys2Proof.Machine
end

