-- ==== Sys2Proof/Safety.lean ====
section
/-! DEFINITION. What holds of the machine in every state it can reach: the legal values of its
registers, of the FSM context and of the trace (spec/10_state.md R22-R31; spec/30_encoding.md R84;
spec/70_reset_and_hazards.md R298). -/

namespace Sys2Proof.Machine

/-- The three selector patterns (10_state.md R26, R29). -/
def selectLegal (v : Byte) : Bool := decide (v ∈ [selChip0, selChip1, selBoth])

/-- The control bytes the block can emit (30_encoding.md R84). -/
def legalCtrls : List Byte := [0x00, 0x01, 0x04, 0x05, 0x08, 0x09, 0x0C, 0x0D]

/-- Every duration the block requests (70_reset_and_hazards.md R298). -/
def delayTable : List Micros := [55000, 4100, 100, 40, 2, 1, 1600]

/-- An event the block can emit. -/
def Event.legal : Event → Bool
  | .bus c _ => decide (c ∈ legalCtrls)
  | .delay us => decide (us ∈ delayTable)

/-- On a 4-bit bus every data byte has its low half zero (30_encoding.md R85). -/
def Event.fits (bw : BusWidth) : Event → Bool
  | .bus _ d =>
    match bw with
    | .bw8 => true
    | .bw4 => decide (d &&& 0x0F = 0)
  | .delay _ => true

/-- The payload context an operation can hold (30_encoding.md R75). -/
def Payload.fits (op : Op) (pay : Payload) : Bool :=
  match op, pay with
  | .createChar, .bytes left => decide (left ≤ 8)
  | .writeN, .bytes left => decide (left ≤ 65535)
  | .writeUntil, .upTo _ => true
  | .createChar, _ => false
  | .writeN, _ => false
  | .writeUntil, _ => false
  | _, .none => true
  | _, _ => false

/-- A payload byte is still expected. -/
def Payload.waiting : Payload → Bool
  | .none => false
  | .bytes left => decide (0 < left)
  | .upTo _ => true

/-- A position the FSM can hold: a whole header, a payload context of the operation, and a place
inside the statement list. -/
def ExecPos.ok (bw : BusWidth) (p : ExecPos) : Bool :=
  decide (p.hdr.length = p.op.headerLen)
    && p.pay.fits p.op
    && decide (p.k ≤ (stmtsAt bw p).length)
    && (match p.cur with
        | none => decide (p.pay = initPayload p.op p.hdr)
        | some _ => decide (p.pay ≠ .none))

/-- An FSM state that can be reached, with its context (10_state.md R30). `WAIT` holds the
duration of the delay statement just before the position it resumes at. -/
def Fsm.ok (bw : BusWidth) : Fsm → Bool
  | .idle => true
  | .hdr op got => decide (got.length < op.headerLen)
  | .exec p => p.ok bw
  | .payload op header pay =>
    decide (header.length = op.headerLen) && pay.fits op && pay.waiting
  | .wait us ret =>
    ret.ok bw && decide (0 < ret.k)
      && decide ((stmtsAt bw ret)[ret.k - 1]? = some (.delay us))
  | .fault => true

/-- The bus width a configuration selects (10_state.md R22). -/
def busWidthOf (cfg : Cfg) : BusWidth := if cfg.bus8 then .bw8 else .bw4

/-- The invariant of the machine. -/
structure State.Inv (s : State) : Prop where
  /-- `bus_width` and `function_set` are those of one configuration (10_state.md R22, R24). -/
  config : ∃ cfg, s.busWidth = busWidthOf cfg ∧ s.functionSet = functionSetOf cfg
  /-- `entry_mode` bits 7:2 are 0 (10_state.md R23). -/
  entryMode : s.entryMode &&& 0xFC = 0
  /-- `display_control` bits 7:3 are 0 (10_state.md R25). -/
  displayControl : s.displayControl &&& 0xF8 = 0
  /-- Selector validity (10_state.md R29). -/
  select : selectLegal s.enableSelect = true
  /-- The line table is constant (10_state.md R27). -/
  lineBase : s.lineBase = #v[0x80, 0xC0]
  /-- The FSM context (10_state.md R30). -/
  fsm : s.fsm.ok s.busWidth = true
  /-- The fault mark says that the FSM is in `FAULT` (10_state.md R31). -/
  fault : s.fault = decide (s.fsm = .fault)
  /-- Every event of the trace is one the block can emit (30_encoding.md R84,
  70_reset_and_hazards.md R298). -/
  trace : ∀ e ∈ s.trace, e.legal = true

end Sys2Proof.Machine
end

