-- ==== Sys2Proof/Certificates/Slice0/Obligations.lean ====
section
/-! DEFINITION. The statements about the model, one `def Obligations.<Name> : Prop` each. A value
the spec marks as its own decision (92_eei_decisions.md) is cited by its rule. -/

open Sys2Proof Sys2Proof.Machine

/-! ### Encoding -/

/-- Decode and encode agree on every operation, whatever follows it in the stream
(30_encoding.md R72, R77). -/
def Obligations.DecodeReadsBackEveryEncoding : Prop :=
  ∀ (i : Instr) (rest : List Byte), i.WellFormed → decode (encode i ++ rest) = .op i rest

/-- The other direction: bytes the decoder takes for an operation are that operation's words, and
the operation is well formed, so each word has one meaning (30_encoding.md R72, R81). -/
def Obligations.DecodedBytesAreItsEncoding : Prop :=
  ∀ (bs rest : List Byte) (i : Instr),
    decode bs = .op i rest → i.WellFormed ∧ bs = encode i ++ rest

/-- The opcode map with the six formats (30_encoding.md R72, R78): each of the 23 rows, with every
operand at every value, and no other byte. The count of `WRITE_N` is `cnt_lo | (cnt_hi << 8)`. -/
def Obligations.OpcodeMapAndFormats : Prop :=
  (∀ r : List Byte,
    decode (0x01 :: r) = .op .begin r ∧ decode (0x02 :: r) = .op .clear r ∧
    decode (0x03 :: r) = .op .home r ∧ decode (0x04 :: r) = .op .cursorLeft r ∧
    decode (0x05 :: r) = .op .cursorRight r ∧ decode (0x06 :: r) = .op .displayLeft r ∧
    decode (0x07 :: r) = .op .displayRight r ∧ decode (0x08 :: r) = .op .autoscrollOn r ∧
    decode (0x09 :: r) = .op .autoscrollOff r ∧ decode (0x0A :: r) = .op .entryInc r ∧
    decode (0x0B :: r) = .op .entryDec r ∧ decode (0x0C :: r) = .op .blinkOn r ∧
    decode (0x0D :: r) = .op .blinkOff r ∧ decode (0x0E :: r) = .op .cursorOn r ∧
    decode (0x0F :: r) = .op .cursorOff r ∧ decode (0x10 :: r) = .op .displayOn r ∧
    decode (0x11 :: r) = .op .displayOff r ∧ decode (0x15 :: r) = .op .echo r) ∧
  (∀ (line col : Byte) (r : List Byte),
    decode (0x12 :: line :: col :: r) = .op (.setCursor line col) r) ∧
  (∀ (slot p0 p1 p2 p3 p4 p5 p6 p7 : Byte) (r : List Byte),
    decode (0x13 :: slot :: p0 :: p1 :: p2 :: p3 :: p4 :: p5 :: p6 :: p7 :: r) =
      .op (.createChar slot p0 p1 p2 p3 p4 p5 p6 p7) r) ∧
  (∀ (n : Byte) (r : List Byte), decode (0x14 :: n :: r) = .op (.selectLcd n) r) ∧
  (∀ (lo hi : Byte) (text r : List Byte), text.length = lo.toNat + 256 * hi.toNat →
    decode (0x16 :: lo :: hi :: (text ++ r)) = .op (.writeN text) r) ∧
  (∀ (term : Byte) (text r : List Byte), term ∉ text →
    decode (0x17 :: term :: (text ++ term :: r)) = .op (.writeUntil term text) r) ∧
  (∀ (b : Byte) (r : List Byte), b.toNat = 0 ∨ 0x18 ≤ b.toNat → decode (b :: r) = .illegal b r)

/-- Some words written out from the formats decode to the operations they stand for
(30_encoding.md R72; the bytes are those of R87, R90 and 95_test_vectors.md). -/
def Obligations.SampleWordsDecode : Prop :=
  decode [0x01] = .op .begin [] ∧
  decode [0x12, 0x01, 0x05, 0x02] = .op (.setCursor 1 5) [0x02] ∧
  decode [0x14, 0x01] = .op (.selectLcd 1) [] ∧
  decode [0x16, 0x02, 0x00, 0x48, 0x69, 0x15] = .op (.writeN [0x48, 0x69]) [0x15] ∧
  decode [0x17, 0x00, 0x41, 0x42, 0x00] = .op (.writeUntil 0x00 [0x41, 0x42]) [] ∧
  decode [0x18] = .illegal 0x18 [] ∧ decode [0x12, 0x05] = .incomplete

/-! ### Transaction primitives -/

/-- `Strobe(rs, d)`: exactly three bus writes, the middle one with the selected strobes high, and
no state written (40_transaction.md R101). -/
def Obligations.StrobeIsThreeBusWrites : Prop :=
  ∀ (rs : Bool) (d : Byte) (s : State),
    let c0 : Byte := if rs then 0x01 else 0x00
    strobe rs d s =
      { s with trace := s.trace ++ [.bus c0 d, .bus (c0 ||| s.enableSelect) d, .bus c0 d] }

/-- `Send(d, rs)` in both bus variants, event by event, and no state written (40_transaction.md
R104, R105); a zero byte is sent like any other (R110). -/
def Obligations.SendEmitsItsTransactionsAndSettle : Prop :=
  ∀ (d : Byte) (rs : Bool) (s : State),
    let c : Byte := if rs then 0x01 else 0x00
    let e : Byte := c ||| s.enableSelect
    let settle : Micros := if rs then 2 else 40
    let hi : Byte := d &&& 0xF0
    let lo : Byte := (d &&& 0x0F) <<< 4
    (s.busWidth = .bw8 →
      send d rs s =
        { s with trace := s.trace ++ [.bus c d, .bus e d, .bus c d, .delay settle] }) ∧
    (s.busWidth = .bw4 →
      send d rs s =
        { s with trace := s.trace ++
            [.bus c hi, .bus e hi, .bus c hi, .delay 1,
             .bus c lo, .bus e lo, .bus c lo, .delay settle] }) ∧
    send d rs s = { s with trace := s.trace ++ sendEvents s.busWidth s.enableSelect d rs }

/-- The event counts and delays of one `Send` (40_transaction.md R109). -/
def Obligations.SendEventCounts : Prop :=
  ∀ (sel d : Byte) (rs : Bool),
    let on8 := sendEvents .bw8 sel d rs
    let on4 := sendEvents .bw4 sel d rs
    busCount on8 = 3 ∧ delays on8 = [if rs then 2 else 40] ∧
    busCount on4 = 6 ∧ delays on4 = [1, if rs then 2 else 40]

/-- `LongCmd(c)` is a command `Send` and then `Delay(1600)`, on either bus (40_transaction.md
R111). -/
def Obligations.LongCommandAddsLongDelay : Prop :=
  ∀ (c : Byte) (s : State),
    longCmd c s =
      { s with trace := s.trace ++ (sendEvents s.busWidth s.enableSelect c false ++ [.delay 1600]) }

/-- Which chips latch a `Send` (40_transaction.md R103): with both enable lines low before it,
each selected chip latches RS with the whole byte once on an 8-bit bus, and the two nibbles, high
first, on a 4-bit bus; both enable lines are low after it. The falling edge is the spec's general
knowledge, and what the lines held before it is what is latched (log 15). -/
def Obligations.SendIsLatchedOncePerSelectedChip : Prop :=
  ∀ (sel d : Byte) (rs : Bool) (was : Lines), selectLegal sel = true →
    Chip.chip0.enabled was.ctrl = false → Chip.chip1.enabled was.ctrl = false →
    let chips : List Chip :=
      if sel = 0x04 then [.chip0] else if sel = 0x08 then [.chip1] else [.chip0, .chip1]
    let took (x : Byte) : List Latch := chips.map (fun c => ⟨c, rs, x⟩)
    latches was (sendEvents .bw8 sel d rs) = took d ∧
    latches was (sendEvents .bw4 sel d rs) = took (d &&& 0xF0) ++ took ((d &&& 0x0F) <<< 4) ∧
    ∀ bw : BusWidth, linesAfter was (sendEvents bw sel d rs) =
      ⟨if rs then 0x01 else 0x00, if bw = .bw8 then d else (d &&& 0x0F) <<< 4⟩

/-! ### BEGIN -/

/-- `BEGIN` completes in every state with the seven steps in order, from the current shadows and
the selection before it, and then selects chip 0; nothing else changes (41_init.md R129). -/
def Obligations.BeginRunsTheHandshake : Prop :=
  encode .begin = [0x01] ∧
  ∀ s : State,
    let T (d : Byte) : List Event :=
      [.bus 0x00 d, .bus (0x00 ||| s.enableSelect) d, .bus 0x00 d]
    let cmd (d : Byte) : List Event := sendEvents s.busWidth s.enableSelect d false
    exec .begin s = .next
      { s with
        enableSelect := 0x04
        trace := s.trace ++
          ([.delay 55000] ++ (T 0x30 ++ [.delay 4100]) ++ (T 0x30 ++ [.delay 100])
            ++ (T 0x30 ++ [.delay 100])
            ++ (if s.busWidth = .bw4 then T 0x20 ++ [.delay 40] else [])
            ++ cmd s.functionSet
            ++ (cmd 0x01 ++ [.delay 1600]) ++ (cmd 0x02 ++ [.delay 1600])
            ++ cmd (0x04 ||| s.entryMode) ++ cmd (0x08 ||| s.displayControl)) }

/-- The event totals and the whole delay list of `BEGIN` (41_init.md R131, R133, R134). -/
def Obligations.BeginTotals : Prop :=
  ∀ s : State, ∃ (t : State) (evs : List Event),
    exec .begin s = .next t ∧ t.trace = s.trace ++ evs ∧
    (s.busWidth = .bw8 →
      busCount evs = 24 ∧ totalDelay evs = 62700 ∧
      delays evs = [55000, 4100, 100, 100, 40, 40, 1600, 40, 1600, 40, 40]) ∧
    (s.busWidth = .bw4 →
      busCount evs = 42 ∧ totalDelay evs = 62745 ∧
      delays evs =
        [55000, 4100, 100, 100, 40, 1, 40, 1, 40, 1600, 1, 40, 1600, 1, 40, 1, 40])

/-- `BEGIN; BEGIN` leaves the same registers as one `BEGIN`, and the second one strobes chip 0
only: its trace is that of a `BEGIN` run with selector 0x04 (41_init.md R132). -/
def Obligations.RepeatedBeginEndsInTheSameState : Prop :=
  ∀ s : State, ∃ t u v : State,
    exec .begin s = .next t ∧ exec .begin t = .next u ∧ { u with trace := t.trace } = t ∧
    exec .begin { s with enableSelect := 0x04, trace := t.trace } = .next v ∧ u.trace = v.trace

/-! ### Fixed commands -/

/-- `CLEAR` and `HOME` complete in every state: one command `Send` and the long delay, no state
written (42_commands.md R141, R142). -/
def Obligations.ClearAndHomeAreLongCommands : Prop :=
  encode .clear = [0x02] ∧ encode .home = [0x03] ∧
  ∀ s : State,
    let evs (c : Byte) : List Event :=
      sendEvents s.busWidth s.enableSelect c false ++ [.delay 1600]
    exec .clear s = .next { s with trace := s.trace ++ evs 0x01 } ∧
    exec .home s = .next { s with trace := s.trace ++ evs 0x02 } ∧
    (s.busWidth = .bw8 → ∀ c, busCount (evs c) = 3 ∧ delays (evs c) = [40, 1600]) ∧
    (s.busWidth = .bw4 → ∀ c, busCount (evs c) = 6 ∧ delays (evs c) = [1, 40, 1600])

/-- The four shifts complete in every state: one command `Send`, no state written
(42_commands.md R143, R144, R145, R146). -/
def Obligations.ShiftsAreOneCommand : Prop :=
  encode .cursorLeft = [0x04] ∧ encode .cursorRight = [0x05] ∧
  encode .displayLeft = [0x06] ∧ encode .displayRight = [0x07] ∧
  ∀ s : State,
    let evs (c : Byte) : List Event := sendEvents s.busWidth s.enableSelect c false
    exec .cursorLeft s = .next { s with trace := s.trace ++ evs 0x10 } ∧
    exec .cursorRight s = .next { s with trace := s.trace ++ evs 0x14 } ∧
    exec .displayLeft s = .next { s with trace := s.trace ++ evs 0x18 } ∧
    exec .displayRight s = .next { s with trace := s.trace ++ evs 0x1C } ∧
    (s.busWidth = .bw8 → ∀ c, busCount (evs c) = 3 ∧ delays (evs c) = [40]) ∧
    (s.busWidth = .bw4 → ∀ c, busCount (evs c) = 6 ∧ delays (evs c) = [1, 40])

/-! ### Flag operations -/

/-- The four entry-mode operations complete in every state: one bit of `entry_mode`, then the
whole new register as a command; nothing else changes (43_flags.md R161, R162, R163, R164). -/
def Obligations.EntryModeOperations : Prop :=
  encode .autoscrollOn = [0x08] ∧ encode .autoscrollOff = [0x09] ∧
  encode .entryInc = [0x0A] ∧ encode .entryDec = [0x0B] ∧
  ∀ s : State,
    let wrote (em : Byte) : State :=
      { s with
        entryMode := em
        trace := s.trace ++ sendEvents s.busWidth s.enableSelect (0x04 ||| em) false }
    exec .autoscrollOn s = .next (wrote (s.entryMode ||| 0x01)) ∧
    exec .autoscrollOff s = .next (wrote (s.entryMode &&& 0xFE)) ∧
    exec .entryInc s = .next (wrote (s.entryMode ||| 0x02)) ∧
    exec .entryDec s = .next (wrote (s.entryMode &&& 0xFD))

/-- The six display-control operations complete in every state: one bit of `display_control`, then
the whole new register as a command; nothing else changes (43_flags.md R165 to R170). -/
def Obligations.DisplayControlOperations : Prop :=
  encode .blinkOn = [0x0C] ∧ encode .blinkOff = [0x0D] ∧
  encode .cursorOn = [0x0E] ∧ encode .cursorOff = [0x0F] ∧
  encode .displayOn = [0x10] ∧ encode .displayOff = [0x11] ∧
  ∀ s : State,
    let wrote (dc : Byte) : State :=
      { s with
        displayControl := dc
        trace := s.trace ++ sendEvents s.busWidth s.enableSelect (0x08 ||| dc) false }
    exec .blinkOn s = .next (wrote (s.displayControl ||| 0x01)) ∧
    exec .blinkOff s = .next (wrote (s.displayControl &&& 0xFE)) ∧
    exec .cursorOn s = .next (wrote (s.displayControl ||| 0x02)) ∧
    exec .cursorOff s = .next (wrote (s.displayControl &&& 0xFD)) ∧
    exec .displayOn s = .next (wrote (s.displayControl ||| 0x04)) ∧
    exec .displayOff s = .next (wrote (s.displayControl &&& 0xFB))

/-- Flag isolation (43_flags.md R171): a flag operation sets its own bit of its own register to
its own value; every other bit of both shadows and every other field but the trace keeps its
value. -/
def Obligations.FlagIsolation : Prop :=
  (∀ e ∈ [(Instr.autoscrollOn, 0, true), (.autoscrollOff, 0, false), (.entryInc, 1, true),
      (.entryDec, 1, false)], ∀ s : State, ∃ t : State,
    exec e.1 s = .next t ∧
    (∀ k, t.entryMode.getLsbD k = if k = e.2.1 then e.2.2 else s.entryMode.getLsbD k) ∧
    { t with entryMode := s.entryMode, trace := s.trace } = s) ∧
  (∀ e ∈ [(Instr.blinkOn, 0, true), (.blinkOff, 0, false), (.cursorOn, 1, true),
      (.cursorOff, 1, false), (.displayOn, 2, true), (.displayOff, 2, false)],
    ∀ s : State, ∃ t : State,
    exec e.1 s = .next t ∧
    (∀ k, t.displayControl.getLsbD k = if k = e.2.1 then e.2.2 else s.displayControl.getLsbD k) ∧
    { t with displayControl := s.displayControl, trace := s.trace } = s)

/-- Idempotence with retransmission (43_flags.md R172): a flag operation run twice emits the same
events both times, and the second run changes nothing but the trace. -/
def Obligations.FlagIdempotenceWithRetransmission : Prop :=
  ∀ i ∈ [Instr.autoscrollOn, .autoscrollOff, .entryInc, .entryDec, .blinkOn, .blinkOff,
      .cursorOn, .cursorOff, .displayOn, .displayOff],
    ∀ s : State, ∃ (t : State) (evs : List Event),
      exec i s = .next t ∧ evs ≠ [] ∧ t.trace = s.trace ++ evs ∧
      exec i t = .next { t with trace := t.trace ++ evs }

/-- Flag operations on different bits commute in the registers, and whichever order they run in,
the last byte of a register sent is the final register (43_flags.md R173). -/
def Obligations.FlagOperationsCommute : Prop :=
  ∀ a ∈ [(Instr.autoscrollOn, true, 0), (.autoscrollOff, true, 0), (.entryInc, true, 1),
      (.entryDec, true, 1), (.blinkOn, false, 0), (.blinkOff, false, 0), (.cursorOn, false, 1),
      (.cursorOff, false, 1), (.displayOn, false, 2), (.displayOff, false, 2)],
  ∀ b ∈ [(Instr.autoscrollOn, true, 0), (.autoscrollOff, true, 0), (.entryInc, true, 1),
      (.entryDec, true, 1), (.blinkOn, false, 0), (.blinkOff, false, 0), (.cursorOn, false, 1),
      (.cursorOff, false, 1), (.displayOn, false, 2), (.displayOff, false, 2)],
    a.2 ≠ b.2 → ∀ s : State, ∃ ta tb tab tba : State,
      exec a.1 s = .next ta ∧ exec b.1 ta = .next tab ∧
      exec b.1 s = .next tb ∧ exec a.1 tb = .next tba ∧
      { tab with trace := [] } = { tba with trace := [] } ∧
      tab.trace = ta.trace ++ sendEvents s.busWidth s.enableSelect
        (if b.2.1 then 0x04 ||| tab.entryMode else 0x08 ||| tab.displayControl) false ∧
      tba.trace = tb.trace ++ sendEvents s.busWidth s.enableSelect
        (if a.2.1 then 0x04 ||| tba.entryMode else 0x08 ||| tba.displayControl) false

/-- No operation leaves a changed shadow untransmitted (10_state.md R28, 43_flags.md R160): if an
operation changes `entry_mode` or `display_control`, the last thing it emits is the whole new
register. -/
def Obligations.ChangedShadowIsTransmittedWhole : Prop :=
  ∀ (i : Instr) (s t : State), exec i s = .next t →
    (t.entryMode ≠ s.entryMode →
      t.trace = s.trace ++ sendEvents s.busWidth s.enableSelect (0x04 ||| t.entryMode) false) ∧
    (t.displayControl ≠ s.displayControl →
      t.trace = s.trace ++ sendEvents s.busWidth s.enableSelect (0x08 ||| t.displayControl) false)

/-! ### Cursor and glyph -/

/-- `SET_CURSOR` completes in every state and for every operand: in range it sends
`S.line_base_addresses[line] + col` as one command, out of range it does nothing at all; the gate
reads neither the line count nor any other field (44_cursor_glyph.md R191, R192). -/
def Obligations.SetCursorSendsOneCommandInRangeOnly : Prop :=
  ∀ (line col : Byte) (s : State),
    encode (.setCursor line col) = [0x12, line, col] ∧
    (∀ h : line.toNat < 2, col.toNat < 40 →
      exec (.setCursor line col) s = .next
        { s with trace := s.trace ++
            sendEvents s.busWidth s.enableSelect (s.lineBase[line.toNat] + col) false }) ∧
    (2 ≤ line.toNat ∨ 40 ≤ col.toNat → exec (.setCursor line col) s = .next s)

/-- With the constant line table, the address byte of an in-range `SET_CURSOR` is `0x80 + col` or
`0xC0 + col` and never carries into the other line's range (20_memory.md R55, 44_cursor_glyph.md
R194). -/
def Obligations.CursorCommandNeverCarries : Prop :=
  ∀ (line col : Byte) (s : State), s.lineBase = #v[0x80, 0xC0] →
    line.toNat < 2 → col.toNat < 40 →
    let cmd : Byte := (if line.toNat = 0 then 0x80 else 0xC0) + col
    exec (.setCursor line col) s = .next
      { s with trace := s.trace ++ sendEvents s.busWidth s.enableSelect cmd false } ∧
    (line.toNat = 0 → 0x80 ≤ ((0x80 : Byte) + col).toNat ∧ ((0x80 : Byte) + col).toNat ≤ 0xA7) ∧
    (line.toNat = 1 → 0xC0 ≤ ((0xC0 : Byte) + col).toNat ∧ ((0xC0 : Byte) + col).toNat ≤ 0xE7)

/-- `CREATE_CHAR` completes in every state and for every operand: the CGRAM address command of the
slot modulo 8, then the eight rows unmasked as data, in order; no state written
(44_cursor_glyph.md R195, R196). -/
def Obligations.CreateCharSendsAddressThenRows : Prop :=
  ∀ (slot p0 p1 p2 p3 p4 p5 p6 p7 : Byte) (s : State),
    let evs : List Event :=
      sendEvents s.busWidth s.enableSelect (0x40 ||| ((slot &&& 0x07) <<< 3)) false ++
        [p0, p1, p2, p3, p4, p5, p6, p7].flatMap
          (fun p => sendEvents s.busWidth s.enableSelect p true)
    encode (.createChar slot p0 p1 p2 p3 p4 p5 p6 p7) =
      [0x13, slot, p0, p1, p2, p3, p4, p5, p6, p7] ∧
    exec (.createChar slot p0 p1 p2 p3 p4 p5 p6 p7) s =
      .next { s with trace := s.trace ++ evs } ∧
    exec (.createChar slot p0 p1 p2 p3 p4 p5 p6 p7) s =
      exec (.createChar (slot &&& 0x07) p0 p1 p2 p3 p4 p5 p6 p7) s ∧
    ((0x40 : Byte) ||| ((slot &&& 0x07) <<< 3)).toNat = 0x40 + 8 * (slot.toNat % 8) ∧
    (s.busWidth = .bw8 → busCount evs = 27 ∧ (delays evs).length = 9) ∧
    (s.busWidth = .bw4 → busCount evs = 54 ∧ (delays evs).length = 18)

/-! ### Text -/

/-- `WRITE_N` completes in every state and for every text: each byte, whatever its value, as one
data `Send`, in order; no state written; an empty text emits nothing (45_text.md R211). -/
def Obligations.WriteNSendsEveryByte : Prop :=
  ∀ (text : List Byte) (s : State),
    let evs : List Event :=
      text.flatMap (fun b => sendEvents s.busWidth s.enableSelect b true)
    (text.length ≤ 65535 →
      encode (.writeN text) =
        0x16 :: BitVec.ofNat 8 (text.length % 256) :: BitVec.ofNat 8 (text.length / 256) :: text) ∧
    exec (.writeN text) s = .next { s with trace := s.trace ++ evs } ∧
    (text = [] → exec (.writeN text) s = .next s) ∧
    (s.busWidth = .bw8 →
      busCount evs = 3 * text.length ∧ delays evs = text.flatMap (fun _ => [2])) ∧
    (s.busWidth = .bw4 →
      busCount evs = 6 * text.length ∧ delays evs = text.flatMap (fun _ => [1, 2]))

/-- `WRITE_UNTIL` completes in every state, for every terminator and every text without it: each
byte before the terminator as one data `Send`, nothing for the terminator; no state written
(45_text.md R212). The last clause is about the model's own run `hostTicks`, in which every delay
is acknowledged at once, which is the model's choice (log 4) and no rule: with no terminator on
offer, that run has sent every byte there is and waits in `PAYLOAD` for ever. -/
def Obligations.WriteUntilStopsAtTheTerminator : Prop :=
  ∀ (term : Byte) (text : List Byte) (s : State), term ∉ text →
    let evs : List Event := text.flatMap (fun b => sendEvents s.busWidth s.enableSelect b true)
    encode (.writeUntil term text) = 0x17 :: term :: (text ++ [term]) ∧
    exec (.writeUntil term text) s = .next { s with trace := s.trace ++ evs } ∧
    (text = [] → exec (.writeUntil term text) s = .next s) ∧
    (s.rst = none → s.fsm = .idle → s.opStream = 0x17 :: term :: text →
      ∃ n, ∀ m, n ≤ m → hostTicks m s =
        { s with
          fsm := .payload .writeUntil [term] (.upTo term)
          opStream := []
          trace := s.trace ++ evs })

/-! ### Panel selection -/

/-- `SELECT_LCD` completes in every state and for every operand: 0 and 1 select their chip, any
other value changes nothing at all (46_panel.md R231). -/
def Obligations.SelectLcdSelectsChipZeroOrOne : Prop :=
  ∀ (n : Byte) (s : State),
    encode (.selectLcd n) = [0x14, n] ∧
    (n.toNat = 0 → exec (.selectLcd n) s = .next { s with enableSelect := 0x04 }) ∧
    (n.toNat = 1 → exec (.selectLcd n) s = .next { s with enableSelect := 0x08 }) ∧
    (2 ≤ n.toNat → exec (.selectLcd n) s = .next s)

/-- `ECHO` completes in every state: it selects both chips and emits nothing; after it a strobe
raises EN1 and EN2 together (46_panel.md R232). -/
def Obligations.EchoSelectsBothChips : Prop :=
  encode .echo = [0x15] ∧
  ∀ s : State, exec .echo s = .next { s with enableSelect := 0x0C } ∧
    ∀ (d : Byte) (t : State), exec .echo s = .next t →
      strobe true d t =
        { t with trace := t.trace ++ [.bus 0x01 d, .bus 0x0D d, .bus 0x01 d] }

/-! ### Frames over all operations -/

/-- The access matrix as a frame (10_state.md R34): which operations may write which field. No
operation writes the bus width, the function set, the line table, the FSM, the fault mark or a
pending input; the trace only grows, and not at all for `SELECT_LCD` and `ECHO`. -/
def Obligations.AccessMatrixFrame : Prop :=
  ∀ (i : Instr) (s t : State), exec i s = .next t →
    t.busWidth = s.busWidth ∧ t.functionSet = s.functionSet ∧ t.lineBase = s.lineBase ∧
    t.fsm = s.fsm ∧ t.fault = s.fault ∧ t.opStream = s.opStream ∧ t.rst = s.rst ∧
    (i.op ∉ [Op.autoscrollOn, .autoscrollOff, .entryInc, .entryDec] →
      t.entryMode = s.entryMode) ∧
    (i.op ∉ [Op.blinkOn, .blinkOff, .cursorOn, .cursorOff, .displayOn, .displayOff] →
      t.displayControl = s.displayControl) ∧
    (i.op ∉ [Op.begin, .selectLcd, .echo] → t.enableSelect = s.enableSelect) ∧
    (∃ evs, t.trace = s.trace ++ evs) ∧
    (i.op ∈ [Op.selectLcd, .echo] → t.trace = s.trace)

/-- Every event an operation emits is one the block can emit: with a legal selector, each control
byte is one of the eight of 30_encoding.md R84 and each duration one of the table of
70_reset_and_hazards.md R298; on a 4-bit bus each data byte has its low half zero (R85). -/
def Obligations.OperationsEmitOnlyLegalEvents : Prop :=
  ∀ (i : Instr) (s t : State), exec i s = .next t →
    ∃ evs, t.trace = s.trace ++ evs ∧
      (selectLegal s.enableSelect = true → ∀ e ∈ evs, e.legal = true) ∧
      ∀ e ∈ evs, e.fits s.busWidth = true

/-- The least time of every operation is that of the table (70_reset_and_hazards.md R299): the sum
of the delays it requests. -/
def Obligations.MinimumDurations : Prop :=
  ∀ (i : Instr) (s : State), i.WellFormed → ∃ (t : State) (evs : List Event),
    exec i s = .next t ∧ t.trace = s.trace ++ evs ∧ totalDelay evs = minDuration s.busWidth i

/-! ### The step -/

/-- The step runs the operation on offer (00_scope.md R14): in `IDLE` with no reset asserted, if
the offered bytes decode to an operation, the step is its meaning on the state with its bytes
taken off the stream. That a step is a whole operation is the model's reading (log 3). -/
def Obligations.StepRunsTheDecodedOperation : Prop :=
  ∀ (s : State) (i : Instr) (rest : List Byte),
    s.rst = none → s.fsm = .idle → decode s.opStream = .op i rest →
    step s = exec i { s with opStream := rest }

/-- Every step answers a next state: nothing stops the machine. The spec says that operations are
fault-free and that its one fault is a state of the FSM (60_exceptions.md R250, R251); that
entering it is a next state, and that the type of faults that stop the machine is empty, is the
model's reading (log 13). -/
def Obligations.EveryStepHasANextState : Prop := ∀ s : State, ∃ t, step s = .next t

/-- A step takes bytes off the front of the stream only, and appends events only: no byte is read
twice and no event is dropped or changed (20_memory.md R57, R60, R61). That this holds across a
reset too is the model's choice (log 6). -/
def Obligations.StepConsumesInOrderAndAppendsEvents : Prop :=
  ∀ s t : State, step s = .next t →
    (∃ taken, s.opStream = taken ++ t.opStream) ∧ ∃ evs, t.trace = s.trace ++ evs

/-! ### The fault -/

/-- `IllegalOp` (60_exceptions.md R251): an opcode byte outside 0x01-0x17 accepted in `IDLE` enters
`FAULT` with nothing else changed and no event; the outputs then are `fault = 1`, `busy = 1`,
`op_ready = 0`; the cause code is 1; and no other condition of the FSM, nor any operation, enters
`FAULT`. -/
def Obligations.IllegalOpcodeEntersFault : Prop :=
  (∀ (inp : PortIn) (s : State), inp.rst = false → s.fsm = .idle → inp.opValid = true →
    (inp.opData.toNat = 0 ∨ 0x18 ≤ inp.opData.toNat) →
      tick inp s = { s with fsm := .fault, fault := true } ∧
      ∀ inp', (outputs inp' (tick inp s)).fault = true ∧
        (outputs inp' (tick inp s)).busy = true ∧ (outputs inp' (tick inp s)).opReady = false) ∧
  (∀ (s : State) (b : Byte) (r : List Byte), s.rst = none → s.fsm = .idle →
    s.opStream = b :: r → (b.toNat = 0 ∨ 0x18 ≤ b.toNat) →
      step s = .next { s with fsm := .fault, fault := true, opStream := r }) ∧
  (∀ (inp : PortIn) (s : State), s.fsm ≠ .fault → (tick inp s).fsm = .fault →
    inp.rst = false ∧ s.fsm = .idle ∧ inp.opValid = true ∧
      (inp.opData.toNat = 0 ∨ 0x18 ≤ inp.opData.toNat)) ∧
  (∀ (i : Instr) (s t : State), exec i s = .next t → t.fsm = s.fsm) ∧
  Cause.illegalOp.code = 1

/-- The fault is sticky and left only by `rst`, which reloads every reset value; no byte is
accepted in `FAULT` (60_exceptions.md R256). The two clauses on `rst` compare every field but the
offered bytes and the trace, so they also say that the pending request is consumed, which is the
model's choice (log 5) and no rule. -/
def Obligations.FaultIsStickyUntilReset : Prop :=
  (∀ (inp : PortIn) (s : State), s.fsm = .fault → inp.rst = false →
    tick inp s = s ∧ accepts inp s = false) ∧
  (∀ s : State, s.fsm = .fault → s.rst = none → step s = .next s) ∧
  (∀ (inp : PortIn) (s : State), s.fsm = .fault → inp.rst = true →
    { tick inp s with opStream := [], trace := [] } = State.resetWith inp.cfg) ∧
  ∀ (s : State) (cfg : Cfg), s.fsm = .fault → s.rst = some cfg → ∃ t : State,
    step s = .next t ∧ { t with opStream := [], trace := [] } = State.resetWith cfg

/-! ### Reset -/

/-- Reset, in any FSM state and with any other inputs, loads every value of 10_state.md R33 from
the sampled configuration, goes to `IDLE` with `busy = 0` and `fault = 0`, drops the operation in
hand, and emits no event (70_reset_and_hazards.md R280). -/
def Obligations.ResetLoadsEveryField : Prop :=
  ∀ (inp : PortIn) (s : State), inp.rst = true →
    let t := tick inp s
    t.busWidth = (if inp.cfg.bus8 then .bw8 else .bw4) ∧ t.entryMode = 0x02 ∧
    t.displayControl = 0x04 ∧
    t.functionSet = 0x20 ||| (if inp.cfg.bus8 then 0x10 else 0x00)
      ||| (if inp.cfg.lines2 then 0x08 else 0x00) ||| (if inp.cfg.font10 then 0x04 else 0x00) ∧
    t.enableSelect = 0x0C ∧ t.lineBase = #v[0x80, 0xC0] ∧ t.fsm = .idle ∧ t.fault = false ∧
    t.trace = s.trace ∧
    ∀ inp', (outputs inp' t).busy = false ∧ (outputs inp' t).fault = false

/-- Reset wins over everything else in its step (60_exceptions.md R254): no byte is accepted, none
is taken off the offered stream, and nothing is driven on the outputs; the step consumes the
request. The idle outputs, and that offered bytes and past events outlive a reset, are the model's
reading (logs 5, 6, 7). -/
def Obligations.ResetBeatsEverythingElse : Prop :=
  (∀ (inp : PortIn) (s : State), inp.rst = true →
    accepts inp s = false ∧ (outputs inp s).bus = none ∧ (outputs inp s).dly = none ∧
    ∀ (b : Byte) (v d : Bool), tick ⟨true, inp.cfg, b, v, d⟩ s = tick inp s) ∧
  ∀ (s : State) (cfg : Cfg), s.rst = some cfg →
    step s = .next { State.resetWith cfg with opStream := s.opStream, trace := s.trace }

/-- The state after reset, field by field, under the model's configuration (log 1) with nothing on
offer (10_state.md R33). -/
def Obligations.ResetStateValues : Prop :=
  State.reset.busWidth = .bw8 ∧ State.reset.entryMode = 0x02 ∧
  State.reset.displayControl = 0x04 ∧ State.reset.functionSet = 0x38 ∧
  State.reset.enableSelect = 0x0C ∧ State.reset.lineBase = #v[0x80, 0xC0] ∧
  State.reset.fsm = .idle ∧ State.reset.fault = false ∧ State.reset.trace = []

/-- `function_set` for each of the eight configurations (10_state.md R24). -/
def Obligations.FunctionSetOfEachConfiguration : Prop :=
  functionSetOf ⟨false, false, false⟩ = 0x20 ∧ functionSetOf ⟨false, false, true⟩ = 0x24 ∧
  functionSetOf ⟨false, true, false⟩ = 0x28 ∧ functionSetOf ⟨false, true, true⟩ = 0x2C ∧
  functionSetOf ⟨true, false, false⟩ = 0x30 ∧ functionSetOf ⟨true, false, true⟩ = 0x34 ∧
  functionSetOf ⟨true, true, false⟩ = 0x38 ∧ functionSetOf ⟨true, true, true⟩ = 0x3C

/-- The configuration is fixed between resets: no step with `rst = 0` changes `bus_width`,
`function_set` or the line table, whatever the `cfg_*` inputs (70_reset_and_hazards.md R285,
10_state.md R22, R27). -/
def Obligations.ConfigurationFixedBetweenResets : Prop :=
  (∀ (inp : PortIn) (s : State), inp.rst = false →
    (tick inp s).busWidth = s.busWidth ∧ (tick inp s).functionSet = s.functionSet ∧
    (tick inp s).lineBase = s.lineBase ∧ ∀ cfg, tick { inp with cfg := cfg } s = tick inp s) ∧
  ∀ s t : State, s.rst = none → step s = .next t →
    t.busWidth = s.busWidth ∧ t.functionSet = s.functionSet ∧ t.lineBase = s.lineBase

/-! ### The FSM -/

/-- The stream handshake (30_encoding.md R71): `op_ready` is up in `IDLE`, `HDR` and `PAYLOAD`
only (in those, whenever `rst = 0`, log 7); with `op_valid = 0` the FSM holds there with no event
and no change, and so it does in `WAIT` until `dly_done`; a step with nothing on offer holds as
well (70_reset_and_hazards.md R297). -/
def Obligations.HandshakeHoldsWithoutAByte : Prop :=
  (∀ (inp : PortIn) (s : State), (outputs inp s).opReady = true ↔
    inp.rst = false ∧ (s.fsm = .idle ∨ (∃ op got, s.fsm = .hdr op got) ∨
      ∃ op hdr pay, s.fsm = .payload op hdr pay)) ∧
  (∀ (inp : PortIn) (s : State), (outputs inp s).opReady = true → inp.opValid = false →
    tick inp s = s) ∧
  (∀ (inp : PortIn) (s : State) (us : Micros) (ret : ExecPos), inp.rst = false →
    s.fsm = .wait us ret → inp.dlyDone = false →
      tick inp s = s ∧ (outputs inp s).dly = some us) ∧
  ∀ s : State, s.rst = none → s.opStream = [] → (outputs (hostPorts s) s).opReady = true →
    step s = .next s

/-- An operation the host does not finish never ends (70_reset_and_hazards.md R297): from `IDLE`,
when the offered bytes are the beginning of an operation only, the FSM takes them all, comes to
rest in `HDR` or `PAYLOAD`, and is neither back in `IDLE` nor in `FAULT` at any time. In these
steps every delay is acknowledged at once, which is the model's choice (log 4). -/
def Obligations.UnfinishedOperationNeverEnds : Prop :=
  ∀ s : State, s.rst = none → s.fsm = .idle → s.opStream ≠ [] →
    decode s.opStream = .incomplete →
    (∃ (n : Nat) (t : State), hostTicks n s = t ∧ hostTick t = t ∧ t.opStream = [] ∧
      ((∃ op got, t.fsm = .hdr op got) ∨ ∃ op hdr pay, t.fsm = .payload op hdr pay)) ∧
    ∀ m, 0 < m → (hostTicks m s).fsm ≠ .idle ∧ (hostTicks m s).fsm ≠ .fault

/-- The transitions of the FSM (10_state.md R30), 1 to 7 in order. `todo` is the operation's
statement list from the position on; an assignment takes no step: the step is that of the state
with the assignment done and the position behind it. The model's reading and choice, and no rule:
when the `Delay` event counts as emitted and which points of a list take a step (logs 10 and 11);
how the context is held, so where a position stands after a payload byte (log 12); and, in the
clause on `rst`, that the request is consumed and that the offered bytes and the trace outlive the
reset (logs 5 and 6). -/
def Obligations.FsmTransitions : Prop :=
  ∀ (inp : PortIn) (s : State),
    (inp.rst = false → s.fsm = .idle → inp.opValid = true →
      (∀ op, Op.ofByte inp.opData = some op → 0 < op.headerLen →
        tick inp s = { s with fsm := .hdr op [] }) ∧
      (∀ op, Op.ofByte inp.opData = some op → op.headerLen = 0 →
        tick inp s = { s with fsm := .exec ⟨op, [], initPayload op [], none, 0⟩ }) ∧
      (Op.ofByte inp.opData = none → tick inp s = { s with fsm := .fault, fault := true })) ∧
    (∀ op got, inp.rst = false → s.fsm = .hdr op got → inp.opValid = true →
      ((got ++ [inp.opData]).length ≠ op.headerLen →
        tick inp s = { s with fsm := .hdr op (got ++ [inp.opData]) }) ∧
      ((got ++ [inp.opData]).length = op.headerLen →
        tick inp s = { s with fsm := .exec ⟨op, got ++ [inp.opData],
          initPayload op (got ++ [inp.opData]), none, 0⟩ })) ∧
    (∀ p, inp.rst = false → s.fsm = .exec p →
      (todo s.busWidth p = [] → tick inp s = { s with fsm := .idle }) ∧
      (∀ rs hi src part r, todo s.busWidth p = .bus rs hi src part :: r →
        tick inp s = { s with
          fsm := .exec { p with k := p.k + 1 }
          trace := s.trace ++ [.bus
            ((if rs then 0x01 else 0x00) ||| (if hi then s.enableSelect else 0x00))
            (part.of (src.eval s))] }) ∧
      (∀ us r, todo s.busWidth p = .delay us :: r →
        tick inp s = { s with
          fsm := .wait us { p with k := p.k + 1 }
          trace := s.trace ++ [.delay us] }) ∧
      (∀ bit v r, todo s.busWidth p = .setEM bit v :: r →
        tick inp s = tick inp { s with
          fsm := .exec { p with k := p.k + 1 }
          entryMode := setBit s.entryMode bit v }) ∧
      (∀ bit v r, todo s.busWidth p = .setDC bit v :: r →
        tick inp s = tick inp { s with
          fsm := .exec { p with k := p.k + 1 }
          displayControl := setBit s.displayControl bit v }) ∧
      (∀ v r, todo s.busWidth p = .setSelect v :: r →
        tick inp s = tick inp { s with
          fsm := .exec { p with k := p.k + 1 }
          enableSelect := v }) ∧
      (∀ r, todo s.busWidth p = .awaitPayload :: r →
        tick inp s = { s with fsm := .payload p.op p.hdr p.pay })) ∧
    (∀ op hdr pay, inp.rst = false → s.fsm = .payload op hdr pay → inp.opValid = true →
      tick inp s =
        { s with fsm := .exec ⟨op, hdr, pay.afterByte, some inp.opData, 0⟩ }) ∧
    (∀ us ret, inp.rst = false → s.fsm = .wait us ret →
      tick inp s = if inp.dlyDone then { s with fsm := .exec ret } else s) ∧
    (inp.rst = false → s.fsm = .fault → tick inp s = s) ∧
    (inp.rst = true →
      tick inp s = { State.resetWith inp.cfg with opStream := s.opStream, trace := s.trace })

/-- The outputs of each FSM state (10_state.md R30, R31), in a step with `rst = 0`: no bus write
but in `EXEC`, a delay request exactly in `WAIT` and with its duration, and the two status
outputs. -/
def Obligations.FsmOutputs : Prop :=
  ∀ (inp : PortIn) (s : State),
    ((outputs inp s).busy = true ↔ s.fsm ≠ .idle) ∧
    ((outputs inp s).fault = true ↔ s.fsm = .fault) ∧
    (inp.rst = false →
      (s.fsm = .idle → outputs inp s = ⟨true, none, none, false, false⟩) ∧
      (∀ op got, s.fsm = .hdr op got → outputs inp s = ⟨true, none, none, true, false⟩) ∧
      (∀ p, s.fsm = .exec p →
        outputs inp s = ⟨false, busOf (todo s.busWidth p) s, none, true, false⟩) ∧
      (∀ op hdr pay, s.fsm = .payload op hdr pay →
        outputs inp s = ⟨true, none, none, true, false⟩) ∧
      (∀ us ret, s.fsm = .wait us ret → outputs inp s = ⟨false, none, some us, true, false⟩) ∧
      (s.fsm = .fault → outputs inp s = ⟨false, none, none, true, true⟩))

/-- A step of the FSM emits at most one event (10_state.md R30): the bus write its outputs show, or
the delay request of the `WAIT` it enters (log 10); with neither, the trace is unchanged. -/
def Obligations.TickEmitsWhatItsOutputsShow : Prop :=
  ∀ (inp : PortIn) (s : State),
    (∀ c d, (outputs inp s).bus = some (c, d) →
      (tick inp s).trace = s.trace ++ [.bus c d] ∧ ∃ p, (tick inp s).fsm = .exec p) ∧
    ((outputs inp s).bus = none →
      (tick inp s).trace = s.trace ∨
      ∃ us ret, (tick inp s).trace = s.trace ++ [.delay us] ∧ (tick inp s).fsm = .wait us ret ∧
        ∃ p, s.fsm = .exec p)

/-- With `rst = 0`, a step of the FSM from any state but `EXEC` leaves the two shadows, the selector
and the trace as they are (10_state.md R30). That a step in `WAIT` adds nothing to the trace,
because its `Delay` event was recorded on entering, is the model's reading (log 10). -/
def Obligations.RegistersChangeOnlyInExec : Prop :=
  ∀ (inp : PortIn) (s : State), inp.rst = false → (∀ p, s.fsm ≠ .exec p) →
    (tick inp s).entryMode = s.entryMode ∧ (tick inp s).displayControl = s.displayControl ∧
    (tick inp s).enableSelect = s.enableSelect ∧ (tick inp s).trace = s.trace

/-- The FSM refines the operation-level meaning (00_scope.md R14): from `IDLE`, with a whole
operation on offer, the FSM takes some number of steps, is busy in between, and ends in exactly
the state the operation's meaning gives, back in `IDLE`. In these steps every delay is
acknowledged at once, which is the model's choice (log 4). -/
def Obligations.FsmRefinesEveryOperation : Prop :=
  ∀ (s : State) (i : Instr) (rest : List Byte),
    s.rst = none → s.fsm = .idle → decode s.opStream = .op i rest →
    ∃ (n : Nat) (t : State), 0 < n ∧
      exec i { s with opStream := rest } = .next t ∧ hostTicks n s = t ∧ t.fsm = .idle ∧
      ∀ m, 0 < m → m < n → (hostTicks m s).fsm ≠ .idle

/-- Neither the host's nor the Delay Source's timing matters (30_encoding.md R71, 20_memory.md R61):
a run under any inputs with `rst = 0` ends, but for the offered stream, in the state that the same
bytes lead to when they are all on offer and every delay is acknowledged at once (log 4). -/
def Obligations.TimingOfInputsDoesNotMatter : Prop :=
  ∀ (inps : List PortIn) (s : State), s.rst = none → (∀ inp ∈ inps, inp.rst = false) →
    ∃ n, n ≤ inps.length ∧
      hostTicks n { s with opStream := acceptedBytes inps s } =
        { tickRun inps s with opStream := [] }

/-! ### The invariant -/

/-- Every step of the machine keeps the invariant `State.Inv` (10_state.md R22 to R31;
30_encoding.md R84; 70_reset_and_hazards.md R298). -/
def Obligations.StepKeepsTheInvariant : Prop :=
  ∀ s t : State, s.Inv → step s = .next t → t.Inv

/-- Every FSM step keeps the invariant, whatever the inputs, `rst` among them (10_state.md R29:
"at every step"). -/
def Obligations.TickKeepsTheInvariant : Prop :=
  ∀ (inp : PortIn) (s : State), s.Inv → (tick inp s).Inv

/-- The reset state of every configuration has the invariant. -/
def Obligations.ResetHasTheInvariant : Prop := ∀ cfg : Cfg, (State.resetWith cfg).Inv

/-! ### The assembler -/

/-- What the assembler accepts is well formed, so its bytes decode to the operation it meant
(30_encoding.md R87); `RESET` is a second spelling of `HOME` (R89). -/
def Obligations.AssembledOperationsAreWellFormed : Prop :=
  (∀ (line : String) (i : Instr), assembleLine line = .ok (some i) → i.WellFormed) ∧
  mnemonicOf "RESET".toList = mnemonicOf "HOME".toList

/-- `PRINT items` is `WRITE_UNTIL 0x00, items`: it emits 0x17, 0x00, the bytes, 0x00, and it is an
error if an item byte is 0x00 (30_encoding.md R90). -/
def Obligations.PrintIsWriteUntilZero : Prop :=
  ∀ (o : Operand) (os : List Operand),
    assembleMnemonic .print (o :: os) = assembleMnemonic (.op .writeUntil) (.num 0x00 :: o :: os) ∧
    (0x00 ∉ itemBytes (o :: os) → ∃ i, assembleMnemonic .print (o :: os) = .ok i ∧
      encode i = 0x17 :: 0x00 :: (itemBytes (o :: os) ++ [0x00])) ∧
    (0x00 ∈ itemBytes (o :: os) →
      assembleMnemonic .print (o :: os) = .error .terminatorInText)
end

