-- ==== Sys2Proof/Laws/Decode.lean ====
section
/-! SUPPORT. Lemmas of the opcode map, the count bytes and the two text readers, which the
statements about decoding and encoding rest on. -/

namespace Sys2Proof

@[simp] theorem Op.ofByte_toByte (op : Op) : Op.ofByte op.toByte = some op := by
  cases op <;> rfl

/-- Every byte, as a literal, names at most the operation whose opcode it is. -/
theorem Op.toByte_of_ofByte {b : Byte} {op : Op} (h : Op.ofByte b = some op) : op.toByte = b := by
  unfold Op.ofByte at h
  apply BitVec.eq_of_toNat_eq
  split at h <;> simp at h <;> subst h <;> simp [Op.toByte, *]

theorem Op.ofByte_eq_some {b : Byte} {op : Op} : Op.ofByte b = some op ↔ b = op.toByte :=
  ⟨fun h => (Op.toByte_of_ofByte h).symm, fun h => h ▸ Op.ofByte_toByte op⟩

/-- The illegal opcodes are 0x00 and 0x18 to 0xFF. -/
theorem Op.ofByte_eq_none {b : Byte} : Op.ofByte b = none ↔ b.toNat = 0 ∨ 24 ≤ b.toNat := by
  unfold Op.ofByte
  split <;> simp only [reduceCtorEq, false_iff, true_iff, imp_false] at * <;> omega

/-- The value of the count. -/
theorem textCount_toNat (lo hi : Byte) : (textCount lo hi).toNat = lo.toNat + 256 * hi.toNat := by
  have hl := lo.isLt
  have hh := hi.isLt
  have h : (hi.setWidth 16 <<< 8).toNat = hi.toNat <<< 8 := by
    simp [BitVec.toNat_shiftLeft, Nat.shiftLeft_eq]
    omega
  have hl' : (lo.setWidth 16).toNat = lo.toNat := by
    simp
    omega
  rw [textCount, BitVec.toNat_or, h, hl', Nat.lor_comm, Nat.or_comm]
  rw [Nat.or_comm, ← Nat.shiftLeft_add_eq_or_of_lt hl, Nat.shiftLeft_eq]
  omega

@[simp] theorem textCount_countBytes {n : Nat} (h : n ≤ 65535) :
    (textCount (BitVec.ofNat 8 (n % 256)) (BitVec.ofNat 8 (n / 256))).toNat = n := by
  rw [textCount_toNat]
  simp
  omega

/-- Reading as many bytes as a text has gives the text. -/
@[simp] theorem takeText_append (text rest : List Byte) :
    takeText text.length (text ++ rest) = some (text, rest) := by
  induction text with
  | nil => rfl
  | cons b bs ih => simp [takeText, ih]

theorem takeText_eq_some {n : Nat} {bs text rest : List Byte}
    (h : takeText n bs = some (text, rest)) : bs = text ++ rest ∧ text.length = n := by
  induction n generalizing bs text rest with
  | zero =>
    simp only [takeText, Option.some.injEq, Prod.mk.injEq] at h
    obtain ⟨rfl, rfl⟩ := h
    simp
  | succ n ih =>
    cases bs with
    | nil => simp [takeText] at h
    | cons b bs =>
      simp only [takeText] at h
      split at h
      · rename_i t r ht
        simp only [Option.some.injEq, Prod.mk.injEq] at h
        obtain ⟨rfl, rfl⟩ := h
        obtain ⟨rfl, rfl⟩ := ih ht
        simp
      · simp at h

/-- Reading up to the terminator of a text that does not hold it gives the text. -/
theorem takeUntil_append {term : Byte} {text : List Byte} (rest : List Byte) (h : term ∉ text) :
    takeUntil term (text ++ term :: rest) = some (text, rest) := by
  induction text with
  | nil => simp [takeUntil]
  | cons b bs ih =>
    obtain ⟨hb, hbs⟩ : term ≠ b ∧ term ∉ bs := by simpa using h
    simp [takeUntil, Ne.symm hb, ih hbs]

theorem takeUntil_eq_some {term : Byte} {bs text rest : List Byte}
    (h : takeUntil term bs = some (text, rest)) : bs = text ++ term :: rest ∧ term ∉ text := by
  induction bs generalizing text with
  | nil => simp [takeUntil] at h
  | cons b bs ih =>
    simp only [takeUntil] at h
    split at h
    · rename_i hb
      simp only [Option.some.injEq, Prod.mk.injEq] at h
      obtain ⟨rfl, rfl⟩ := h
      simp [hb]
    · rename_i hb
      split at h
      · rename_i t r ht
        simp only [Option.some.injEq, Prod.mk.injEq] at h
        obtain ⟨rfl, rfl⟩ := h
        obtain ⟨rfl, hm⟩ := ih ht
        simp [hm, Ne.symm hb]
      · simp at h

/-- The decoder on a stream that starts with an operation's opcode. -/
theorem decode_toByte (op : Op) (r : List Byte) : decode (op.toByte :: r) = decodeOperands op r := by
  simp [decode]

end Sys2Proof
end

