-- ==== Sys2Proof/Laws/State.lean ====
section
/-! SUPPORT. One lemma per field and named update of the state, each by unfolding the update. -/

namespace Sys2Proof.Machine

/-! ### State.emits -/

@[simp] theorem State.emits_busWidth (s : State) (evs : List Event) : (s.emits evs).busWidth = s.busWidth := rfl
@[simp] theorem State.emits_entryMode (s : State) (evs : List Event) : (s.emits evs).entryMode = s.entryMode := rfl
@[simp] theorem State.emits_displayControl (s : State) (evs : List Event) : (s.emits evs).displayControl = s.displayControl := rfl
@[simp] theorem State.emits_functionSet (s : State) (evs : List Event) : (s.emits evs).functionSet = s.functionSet := rfl
@[simp] theorem State.emits_enableSelect (s : State) (evs : List Event) : (s.emits evs).enableSelect = s.enableSelect := rfl
@[simp] theorem State.emits_lineBase (s : State) (evs : List Event) : (s.emits evs).lineBase = s.lineBase := rfl
@[simp] theorem State.emits_fsm (s : State) (evs : List Event) : (s.emits evs).fsm = s.fsm := rfl
@[simp] theorem State.emits_fault (s : State) (evs : List Event) : (s.emits evs).fault = s.fault := rfl
@[simp] theorem State.emits_opStream (s : State) (evs : List Event) : (s.emits evs).opStream = s.opStream := rfl
@[simp] theorem State.emits_rst (s : State) (evs : List Event) : (s.emits evs).rst = s.rst := rfl
@[simp] theorem State.emits_trace (s : State) (evs : List Event) : (s.emits evs).trace = s.trace ++ evs := rfl

/-! ### State.goto -/

@[simp] theorem State.goto_busWidth (s : State) (f : Fsm) : (s.goto f).busWidth = s.busWidth := rfl
@[simp] theorem State.goto_entryMode (s : State) (f : Fsm) : (s.goto f).entryMode = s.entryMode := rfl
@[simp] theorem State.goto_displayControl (s : State) (f : Fsm) : (s.goto f).displayControl = s.displayControl := rfl
@[simp] theorem State.goto_functionSet (s : State) (f : Fsm) : (s.goto f).functionSet = s.functionSet := rfl
@[simp] theorem State.goto_enableSelect (s : State) (f : Fsm) : (s.goto f).enableSelect = s.enableSelect := rfl
@[simp] theorem State.goto_lineBase (s : State) (f : Fsm) : (s.goto f).lineBase = s.lineBase := rfl
@[simp] theorem State.goto_fsm (s : State) (f : Fsm) : (s.goto f).fsm = f := rfl
@[simp] theorem State.goto_fault (s : State) (f : Fsm) : (s.goto f).fault = s.fault := rfl
@[simp] theorem State.goto_opStream (s : State) (f : Fsm) : (s.goto f).opStream = s.opStream := rfl
@[simp] theorem State.goto_rst (s : State) (f : Fsm) : (s.goto f).rst = s.rst := rfl
@[simp] theorem State.goto_trace (s : State) (f : Fsm) : (s.goto f).trace = s.trace := rfl

/-! ### State.setEM -/

@[simp] theorem State.setEM_busWidth (s : State) (bit : Nat) (v : Bool) : (s.setEM bit v).busWidth = s.busWidth := rfl
@[simp] theorem State.setEM_entryMode (s : State) (bit : Nat) (v : Bool) : (s.setEM bit v).entryMode = setBit s.entryMode bit v := rfl
@[simp] theorem State.setEM_displayControl (s : State) (bit : Nat) (v : Bool) : (s.setEM bit v).displayControl = s.displayControl := rfl
@[simp] theorem State.setEM_functionSet (s : State) (bit : Nat) (v : Bool) : (s.setEM bit v).functionSet = s.functionSet := rfl
@[simp] theorem State.setEM_enableSelect (s : State) (bit : Nat) (v : Bool) : (s.setEM bit v).enableSelect = s.enableSelect := rfl
@[simp] theorem State.setEM_lineBase (s : State) (bit : Nat) (v : Bool) : (s.setEM bit v).lineBase = s.lineBase := rfl
@[simp] theorem State.setEM_fsm (s : State) (bit : Nat) (v : Bool) : (s.setEM bit v).fsm = s.fsm := rfl
@[simp] theorem State.setEM_fault (s : State) (bit : Nat) (v : Bool) : (s.setEM bit v).fault = s.fault := rfl
@[simp] theorem State.setEM_opStream (s : State) (bit : Nat) (v : Bool) : (s.setEM bit v).opStream = s.opStream := rfl
@[simp] theorem State.setEM_rst (s : State) (bit : Nat) (v : Bool) : (s.setEM bit v).rst = s.rst := rfl
@[simp] theorem State.setEM_trace (s : State) (bit : Nat) (v : Bool) : (s.setEM bit v).trace = s.trace := rfl

/-! ### State.setDC -/

@[simp] theorem State.setDC_busWidth (s : State) (bit : Nat) (v : Bool) : (s.setDC bit v).busWidth = s.busWidth := rfl
@[simp] theorem State.setDC_entryMode (s : State) (bit : Nat) (v : Bool) : (s.setDC bit v).entryMode = s.entryMode := rfl
@[simp] theorem State.setDC_displayControl (s : State) (bit : Nat) (v : Bool) : (s.setDC bit v).displayControl = setBit s.displayControl bit v := rfl
@[simp] theorem State.setDC_functionSet (s : State) (bit : Nat) (v : Bool) : (s.setDC bit v).functionSet = s.functionSet := rfl
@[simp] theorem State.setDC_enableSelect (s : State) (bit : Nat) (v : Bool) : (s.setDC bit v).enableSelect = s.enableSelect := rfl
@[simp] theorem State.setDC_lineBase (s : State) (bit : Nat) (v : Bool) : (s.setDC bit v).lineBase = s.lineBase := rfl
@[simp] theorem State.setDC_fsm (s : State) (bit : Nat) (v : Bool) : (s.setDC bit v).fsm = s.fsm := rfl
@[simp] theorem State.setDC_fault (s : State) (bit : Nat) (v : Bool) : (s.setDC bit v).fault = s.fault := rfl
@[simp] theorem State.setDC_opStream (s : State) (bit : Nat) (v : Bool) : (s.setDC bit v).opStream = s.opStream := rfl
@[simp] theorem State.setDC_rst (s : State) (bit : Nat) (v : Bool) : (s.setDC bit v).rst = s.rst := rfl
@[simp] theorem State.setDC_trace (s : State) (bit : Nat) (v : Bool) : (s.setDC bit v).trace = s.trace := rfl

/-! ### State.setSelect -/

@[simp] theorem State.setSelect_busWidth (s : State) (v : Byte) : (s.setSelect v).busWidth = s.busWidth := rfl
@[simp] theorem State.setSelect_entryMode (s : State) (v : Byte) : (s.setSelect v).entryMode = s.entryMode := rfl
@[simp] theorem State.setSelect_displayControl (s : State) (v : Byte) : (s.setSelect v).displayControl = s.displayControl := rfl
@[simp] theorem State.setSelect_functionSet (s : State) (v : Byte) : (s.setSelect v).functionSet = s.functionSet := rfl
@[simp] theorem State.setSelect_enableSelect (s : State) (v : Byte) : (s.setSelect v).enableSelect = v := rfl
@[simp] theorem State.setSelect_lineBase (s : State) (v : Byte) : (s.setSelect v).lineBase = s.lineBase := rfl
@[simp] theorem State.setSelect_fsm (s : State) (v : Byte) : (s.setSelect v).fsm = s.fsm := rfl
@[simp] theorem State.setSelect_fault (s : State) (v : Byte) : (s.setSelect v).fault = s.fault := rfl
@[simp] theorem State.setSelect_opStream (s : State) (v : Byte) : (s.setSelect v).opStream = s.opStream := rfl
@[simp] theorem State.setSelect_rst (s : State) (v : Byte) : (s.setSelect v).rst = s.rst := rfl
@[simp] theorem State.setSelect_trace (s : State) (v : Byte) : (s.setSelect v).trace = s.trace := rfl

/-! ### raiseIllegalOp -/

@[simp] theorem raiseIllegalOp_busWidth (s : State) : (raiseIllegalOp s).busWidth = s.busWidth := rfl
@[simp] theorem raiseIllegalOp_entryMode (s : State) : (raiseIllegalOp s).entryMode = s.entryMode := rfl
@[simp] theorem raiseIllegalOp_displayControl (s : State) : (raiseIllegalOp s).displayControl = s.displayControl := rfl
@[simp] theorem raiseIllegalOp_functionSet (s : State) : (raiseIllegalOp s).functionSet = s.functionSet := rfl
@[simp] theorem raiseIllegalOp_enableSelect (s : State) : (raiseIllegalOp s).enableSelect = s.enableSelect := rfl
@[simp] theorem raiseIllegalOp_lineBase (s : State) : (raiseIllegalOp s).lineBase = s.lineBase := rfl
@[simp] theorem raiseIllegalOp_fsm (s : State) : (raiseIllegalOp s).fsm = .fault := rfl
@[simp] theorem raiseIllegalOp_fault (s : State) : (raiseIllegalOp s).fault = true := rfl
@[simp] theorem raiseIllegalOp_opStream (s : State) : (raiseIllegalOp s).opStream = s.opStream := rfl
@[simp] theorem raiseIllegalOp_rst (s : State) : (raiseIllegalOp s).rst = s.rst := rfl
@[simp] theorem raiseIllegalOp_trace (s : State) : (raiseIllegalOp s).trace = s.trace := rfl

/-! ### applyReset -/

@[simp] theorem applyReset_busWidth (cfg : Cfg) (s : State) : (applyReset cfg s).busWidth = busWidthOf cfg := rfl
@[simp] theorem applyReset_entryMode (cfg : Cfg) (s : State) : (applyReset cfg s).entryMode = 0x02 := rfl
@[simp] theorem applyReset_displayControl (cfg : Cfg) (s : State) : (applyReset cfg s).displayControl = 0x04 := rfl
@[simp] theorem applyReset_functionSet (cfg : Cfg) (s : State) : (applyReset cfg s).functionSet = functionSetOf cfg := rfl
@[simp] theorem applyReset_enableSelect (cfg : Cfg) (s : State) : (applyReset cfg s).enableSelect = selBoth := rfl
@[simp] theorem applyReset_lineBase (cfg : Cfg) (s : State) : (applyReset cfg s).lineBase = #v[0x80, 0xC0] := rfl
@[simp] theorem applyReset_fsm (cfg : Cfg) (s : State) : (applyReset cfg s).fsm = .idle := rfl
@[simp] theorem applyReset_fault (cfg : Cfg) (s : State) : (applyReset cfg s).fault = false := rfl
@[simp] theorem applyReset_opStream (cfg : Cfg) (s : State) : (applyReset cfg s).opStream = s.opStream := rfl
@[simp] theorem applyReset_rst (cfg : Cfg) (s : State) : (applyReset cfg s).rst = none := rfl
@[simp] theorem applyReset_trace (cfg : Cfg) (s : State) : (applyReset cfg s).trace = s.trace := rfl

end Sys2Proof.Machine
end

