-- ==== Sys2Proof/Laws/Ops.lean ====
section
/-! SUPPORT. One lemma per shared operation that says everything it does: which events it appends.
A later proof cites these and unfolds no operation. -/

namespace Sys2Proof.Machine

@[simp] theorem State.emits_nil (s : State) : s.emits [] = s := by
  simp [State.emits]

@[simp] theorem State.emits_emits (s : State) (a b : List Event) :
    (s.emits a).emits b = s.emits (a ++ b) := by
  simp [State.emits]

theorem emitBus_eq (c d : Byte) (s : State) : emitBus c d s = s.emits [.bus c d] := rfl

theorem emitDelay_eq (us : Micros) (s : State) : emitDelay us s = s.emits [.delay us] := rfl

/-- `Strobe` appends its three events. -/
theorem strobe_eq (rs : Bool) (d : Byte) (s : State) :
    strobe rs d s = s.emits (strobeEvents s.enableSelect rs d) := by
  simp [strobe, emitBus_eq, strobeEvents]

/-- `InitStrobe` is a command strobe of the whole byte. -/
theorem initStrobe_eq (d : Byte) (s : State) :
    initStrobe d s = s.emits (strobeEvents s.enableSelect false d) := strobe_eq false d s

/-- `Send` appends its events and does nothing else. -/
theorem send_eq (d : Byte) (rs : Bool) (s : State) :
    send d rs s = s.emits (sendEvents s.busWidth s.enableSelect d rs) := by
  unfold send sendEvents
  cases s.busWidth <;> simp [strobe_eq, emitDelay_eq]

/-- `LongCmd` appends its events and does nothing else. -/
theorem longCmd_eq (c : Byte) (s : State) :
    longCmd c s = s.emits (longEvents s.busWidth s.enableSelect c) := by
  simp [longCmd, longEvents, send_eq, emitDelay_eq]

@[simp] theorem textEvents_nil (bw : BusWidth) (sel : Byte) : textEvents bw sel [] = [] := rfl

@[simp] theorem textEvents_cons (bw : BusWidth) (sel b : Byte) (bs : List Byte) :
    textEvents bw sel (b :: bs) = sendEvents bw sel b true ++ textEvents bw sel bs := rfl

/-- Sending a text appends the events of its bytes, in order. -/
theorem sendText_eq (text : List Byte) (s : State) :
    sendText text s = s.emits (textEvents s.busWidth s.enableSelect text) := by
  induction text generalizing s with
  | nil => simp [sendText]
  | cons b bs ih => simp [sendText, send_eq, ih]

/-- Sending until a terminator that the text does not hold sends the text and stops there. -/
theorem sendUntil_append (term : Byte) (text rest : List Byte) (s : State) (h : term ∉ text) :
    sendUntil term (text ++ term :: rest) s =
      s.emits (textEvents s.busWidth s.enableSelect text) := by
  induction text generalizing s with
  | nil => simp [sendUntil]
  | cons b bs ih =>
    obtain ⟨hb, hbs⟩ : term ≠ b ∧ term ∉ bs := by simpa using h
    simp [sendUntil, Ne.symm hb, ih _ hbs, send_eq]

/-- Sending until a terminator sends some initial part of the text, whatever the text. -/
theorem sendUntil_eq (term : Byte) (text : List Byte) (s : State) :
    sendUntil term text s =
      s.emits (textEvents s.busWidth s.enableSelect (text.takeWhile (fun b => b ≠ term))) := by
  induction text generalizing s with
  | nil => simp [sendUntil]
  | cons b bs ih =>
    by_cases hb : b = term
    · simp [sendUntil, hb]
    · simp [sendUntil, hb, ih, send_eq]

/-- The flag operations on `entry_mode`: one bit, then the whole register as a command. -/
theorem setFlagEM_eq (bit : Nat) (v : Bool) (s : State) :
    setFlagEM bit v s = (s.setEM bit v).emits
      (sendEvents s.busWidth s.enableSelect (entryModeByte (setBit s.entryMode bit v)) false) := by
  simp [setFlagEM, send_eq, State.emCmd]

/-- The flag operations on `display_control`: one bit, then the whole register as a command. -/
theorem setFlagDC_eq (bit : Nat) (v : Bool) (s : State) :
    setFlagDC bit v s = (s.setDC bit v).emits
      (sendEvents s.busWidth s.enableSelect (displayControlByte (setBit s.displayControl bit v))
        false) := by
  simp [setFlagDC, send_eq, State.dcCmd]

/-! ### Counts over appended lists -/

@[simp] theorem delays_append (a b : List Event) : delays (a ++ b) = delays a ++ delays b := by
  induction a with
  | nil => rfl
  | cons e a ih => cases e <;> simp [delays, ih]

@[simp] theorem busCount_append (a b : List Event) :
    busCount (a ++ b) = busCount a + busCount b := by
  induction a with
  | nil => simp [busCount]
  | cons e a ih => cases e <;> simp [busCount, ih] ; omega

@[simp] theorem totalDelay_append (a b : List Event) :
    totalDelay (a ++ b) = totalDelay a + totalDelay b := by
  induction a with
  | nil => simp [totalDelay]
  | cons e a ih => cases e <;> simp [totalDelay, ih] ; omega

/-- The lines after two runs of events. -/
theorem linesAfter_append (was : Lines) (a b : List Event) :
    linesAfter was (a ++ b) = linesAfter (linesAfter was a) b := by
  induction a generalizing was with
  | nil => rfl
  | cons e a ih => cases e <;> simp [linesAfter, ih]

/-- What is latched over two runs of events. -/
theorem latches_append (was : Lines) (a b : List Event) :
    latches was (a ++ b) = latches was a ++ latches (linesAfter was a) b := by
  induction a generalizing was with
  | nil => rfl
  | cons e a ih => cases e <;> simp [latches, linesAfter, ih]

end Sys2Proof.Machine
end

