-- ==== Sys2Proof/Laws/Fsm.lean ====
section
/-! SUPPORT. What a step of the FSM can do in each state, and how the statement lists of the FSM
run to their end. The refinement of an operation by FSM steps is put together from these. -/

namespace Sys2Proof.Machine

/-! ### One step in each FSM state -/

section Tick
variable (inp : PortIn) (s : State)

theorem tick_rst (h : inp.rst = true) : tick inp s = applyReset inp.cfg s := by simp [tick, h]

variable {inp s} (hr : inp.rst = false)
include hr

theorem tick_idle (h : s.fsm = .idle) :
    tick inp s = if inp.opValid then acceptOpcode inp.opData s else s := by simp [tick, hr, h]

theorem tick_hdr {op : Op} {got : List Byte} (h : s.fsm = .hdr op got) :
    tick inp s = if inp.opValid then acceptHeader op got inp.opData s else s := by
  simp [tick, hr, h]

theorem tick_exec {p : ExecPos} (h : s.fsm = .exec p) :
    tick inp s = execStmts (todo s.busWidth p) p s := by simp [tick, hr, h]

theorem tick_payload {op : Op} {hdr : List Byte} {pay : Payload} (h : s.fsm = .payload op hdr pay) :
    tick inp s = if inp.opValid then acceptPayload op hdr pay inp.opData s else s := by
  simp [tick, hr, h]

theorem tick_wait {us : Micros} {ret : ExecPos} (h : s.fsm = .wait us ret) :
    tick inp s = if inp.dlyDone then s.goto (.exec ret) else s := by simp [tick, hr, h]

theorem tick_fault (h : s.fsm = .fault) : tick inp s = s := by simp [tick, hr, h]

end Tick

/-! ### One step under the pending inputs, no reset asserted -/

section HostTick
variable {s : State} (hr : s.rst = none)
include hr

theorem hostTick_exec {p : ExecPos} (h : s.fsm = .exec p) :
    hostTick s = execStmts (todo s.busWidth p) p s := by
  simp [hostTick, takeAccepted, accepts, outputs, tick, hostPorts, hr, h]

theorem hostTick_wait {us : Micros} {ret : ExecPos} (h : s.fsm = .wait us ret) :
    hostTick s = s.goto (.exec ret) := by
  simp [hostTick, takeAccepted, accepts, outputs, tick, hostPorts, hr, h]

theorem hostTick_idle {b : Byte} {r : List Byte} (h : s.fsm = .idle) (hs : s.opStream = b :: r) :
    hostTick s = acceptOpcode b { s with opStream := r } := by
  simp [hostTick, takeAccepted, accepts, outputs, tick, hostPorts, hr, h, hs]

theorem hostTick_hdr {op : Op} {got : List Byte} {b : Byte} {r : List Byte}
    (h : s.fsm = .hdr op got) (hs : s.opStream = b :: r) :
    hostTick s = acceptHeader op got b { s with opStream := r } := by
  simp [hostTick, takeAccepted, accepts, outputs, tick, hostPorts, hr, h, hs]

theorem hostTick_payload {op : Op} {hdr : List Byte} {pay : Payload} {b : Byte} {r : List Byte}
    (h : s.fsm = .payload op hdr pay) (hs : s.opStream = b :: r) :
    hostTick s = acceptPayload op hdr pay b { s with opStream := r } := by
  simp [hostTick, takeAccepted, accepts, outputs, tick, hostPorts, hr, h, hs]

theorem hostTick_fault (h : s.fsm = .fault) : hostTick s = s := by
  simp [hostTick, takeAccepted, accepts, outputs, tick, hostPorts, hr, h]

/-- With no byte on offer and the FSM waiting for one, nothing happens. -/
theorem hostTick_stalled (hs : s.opStream = [])
    (h : s.fsm = .idle ∨ (∃ op got, s.fsm = .hdr op got) ∨
      ∃ op hdr pay, s.fsm = .payload op hdr pay) : hostTick s = s := by
  obtain h | ⟨op, got, h⟩ | ⟨op, hdr, pay, h⟩ := h <;>
    simp [hostTick, takeAccepted, accepts, outputs, tick, hostPorts, hr, h, hs]

end HostTick

/-! ### Runs of steps that stay busy -/

theorem hostTicks_add (m n : Nat) (s : State) :
    hostTicks (m + n) s = hostTicks n (hostTicks m s) := by
  induction m generalizing s with
  | zero => simp [hostTicks]
  | succ m ih => rw [Nat.succ_add]; simp [hostTicks, ih]

/-- From `s` the FSM comes to `t`, and is not in `IDLE` on the way: not in `s` and not before
`t`. -/
inductive Busy : State → State → Prop where
  | refl (s : State) : Busy s s
  | step {s t : State} (h : s.fsm ≠ .idle) (hb : Busy (hostTick s) t) : Busy s t

theorem Busy.trans {s t u : State} (h₁ : Busy s t) (h₂ : Busy t u) : Busy s u := by
  induction h₁ with
  | refl => exact h₂
  | step h _ ih => exact .step h (ih h₂)

/-- A busy run, by the number of its steps. -/
theorem Busy.ticks {s t : State} (h : Busy s t) :
    ∃ n, hostTicks n s = t ∧ ∀ m, m < n → (hostTicks m s).fsm ≠ .idle := by
  induction h with
  | refl s => exact ⟨0, rfl, by simp⟩
  | step h _ ih =>
    obtain ⟨n, hn, hb⟩ := ih
    refine ⟨n + 1, hn, fun m hm => ?_⟩
    cases m with
    | zero => exact h
    | succ m => exact hb m (by omega)

/-! ### Statement lists run to their end -/

/-- The state in which a statement list ends, with the FSM in `IDLE`, or at its first payload
point, with the FSM in the state `f`. -/
def finish (f : Fsm) : List Stmt → State → State
  | [], s => s.goto .idle
  | .bus rs hi src part :: r, s =>
    finish f r (emitBus (Stmt.ctrl s rs hi) (part.of (src.eval s)) s)
  | .delay us :: r, s => finish f r (emitDelay us s)
  | .setEM bit v :: r, s => finish f r (s.setEM bit v)
  | .setDC bit v :: r, s => finish f r (s.setDC bit v)
  | .setSelect v :: r, s => finish f r (s.setSelect v)
  | .awaitPayload :: _, s => s.goto f

@[simp] theorem goto_goto (s : State) (f g : Fsm) : (s.goto f).goto g = s.goto g := rfl

@[simp] theorem eval_goto (s : State) (f : Fsm) (src : DataSrc) :
    src.eval (s.goto f) = src.eval s := by cases src <;> rfl

theorem emits_goto (s : State) (f : Fsm) (evs : List Event) :
    (s.goto f).emits evs = (s.emits evs).goto f := rfl

/-- The FSM state a list is entered with does not matter to what it does. -/
theorem execStmts_goto (l : List Stmt) (p : ExecPos) (s : State) (f : Fsm) :
    execStmts l p (s.goto f) = execStmts l p s := by
  induction l generalizing p s with
  | nil => rfl
  | cons st r ih =>
    cases st with
    | bus rs hi src part => simp [execStmts, emitBus_eq, emits_goto, Stmt.ctrl]
    | delay us => simp [execStmts, emitDelay_eq, emits_goto]
    | setEM bit v => exact ih p.succ (s.setEM bit v)
    | setDC bit v => exact ih p.succ (s.setDC bit v)
    | setSelect v => exact ih p.succ (s.setSelect v)
    | awaitPayload => rfl

theorem finish_goto (f g : Fsm) (l : List Stmt) (s : State) :
    finish f l (s.goto g) = finish f l s := by
  induction l generalizing s with
  | nil => rfl
  | cons st r ih =>
    cases st with
    | bus rs hi src part =>
      simpa [finish, emitBus_eq, emits_goto, Stmt.ctrl] using ih _
    | delay us => exact ih (emitDelay us s)
    | setEM bit v => exact ih (s.setEM bit v)
    | setDC bit v => exact ih (s.setDC bit v)
    | setSelect v => exact ih (s.setSelect v)
    | awaitPayload => rfl

theorem todo_succ {bw : BusWidth} {p : ExecPos} {st : Stmt} {r : List Stmt}
    (h : todo bw p = st :: r) : todo bw p.succ = r := by
  have : todo bw p.succ = (todo bw p).drop 1 := by
    simp [todo, ExecPos.succ, stmtsAt, List.drop_drop]
  simp [this, h]

/-- From the state after the first step in `EXEC`, the FSM runs its statement list to the end, or
to its first payload point, and is busy until then. -/
theorem execStmts_busy (l : List Stmt) (p : ExecPos) (s : State) (hr : s.rst = none)
    (hl : todo s.busWidth p = l) :
    Busy (execStmts l p s) (finish (.payload p.op p.hdr p.pay) l s) := by
  induction l generalizing p s with
  | nil => exact .refl _
  | cons st r ih =>
    have hsucc := todo_succ hl
    cases st with
    | bus rs hi src part =>
      refine .step (by simp [execStmts]) ?_
      rw [hostTick_exec (p := p.succ) (by simpa [execStmts, emitBus_eq] using hr) rfl]
      simp only [execStmts, State.goto_busWidth, emitBus_eq, State.emits_busWidth, hsucc,
        execStmts_goto, finish]
      exact ih p.succ (s.emits _) hr hsucc
    | delay us =>
      refine .step (by simp [execStmts]) ?_
      rw [hostTick_wait (us := us) (ret := p.succ) (by simpa [execStmts, emitDelay_eq] using hr) rfl]
      refine .step (by simp) ?_
      rw [hostTick_exec (p := p.succ) (by simpa [execStmts, emitDelay_eq] using hr) rfl]
      simp only [execStmts, State.goto_busWidth, emitDelay_eq, State.emits_busWidth, hsucc,
        execStmts_goto, finish]
      exact ih p.succ (s.emits _) hr hsucc
    | setEM bit v => exact ih p.succ (s.setEM bit v) hr hsucc
    | setDC bit v => exact ih p.succ (s.setDC bit v) hr hsucc
    | setSelect v => exact ih p.succ (s.setSelect v) hr hsucc
    | awaitPayload => exact .refl _

/-- Entered at the start of a list, `EXEC` runs it to its end or first payload point. -/
theorem exec_busy (p : ExecPos) (s : State) (hr : s.rst = none) (hf : s.fsm = .exec p) :
    Busy s (finish (.payload p.op p.hdr p.pay) (todo s.busWidth p) s) := by
  refine .step (by simp [hf]) ?_
  rw [hostTick_exec hr hf]
  exact execStmts_busy _ p s hr rfl

/-! ### The statement lists of the primitives do what the primitives do -/

@[simp] theorem eval_emits (s : State) (evs : List Event) (src : DataSrc) :
    src.eval (s.emits evs) = src.eval s := by cases src <;> rfl

theorem finish_strobe (f : Fsm) (rs : Bool) (src : DataSrc) (part : Part) (r : List Stmt)
    (s : State) :
    finish f (strobeStmts rs src part ++ r) s =
      finish f r (strobe rs (part.of (src.eval s)) s) := by
  simp [strobeStmts, finish, strobe, emitBus_eq, Stmt.ctrl]

theorem finish_send (f : Fsm) (src : DataSrc) (rs : Bool) (r : List Stmt) (s : State) :
    finish f (sendStmts s.busWidth src rs ++ r) s = finish f r (send (src.eval s) rs s) := by
  unfold sendStmts send
  cases s.busWidth <;>
    simp [List.append_assoc, finish_strobe, finish, Part.of, strobe_eq, emitDelay_eq]

theorem finish_long (f : Fsm) (c : Byte) (r : List Stmt) (s : State) :
    finish f (longStmts s.busWidth c ++ r) s = finish f r (longCmd c s) := by
  simp [longStmts, List.append_assoc, finish_send, finish, longCmd, DataSrc.eval]

theorem finish_init (f : Fsm) (d : Byte) (us : Micros) (r : List Stmt) (s : State) :
    finish f (initStmts d us ++ r) s = finish f r (emitDelay us (initStrobe d s)) := by
  simp [initStmts, List.append_assoc, finish_strobe, finish, initStrobe, Part.of, DataSrc.eval]

end Sys2Proof.Machine
end

