-- ==== Sys2Proof/Laws/PerInstr.lean ====
section
/-! SUPPORT. Family `EncodeHead` (LAWS.json): the encoding of an operation begins with a legal
opcode byte, the one that names the operation. -/

namespace Sys2Proof.Laws.EncodeHead

/-- The first byte of the encoding is the opcode of the operation, and the opcode map reads it. -/
def Statement (i : Instr) : Prop :=
  ∃ r, encode i = i.op.toByte :: r ∧ Op.ofByte i.op.toByte = some i.op

theorem of_any (i : Instr) : Statement i := ⟨i.operandBytes, rfl, Op.ofByte_toByte _⟩

theorem begin : Statement .begin := of_any _
theorem clear : Statement .clear := of_any _
theorem home : Statement .home := of_any _
theorem cursorLeft : Statement .cursorLeft := of_any _
theorem cursorRight : Statement .cursorRight := of_any _
theorem displayLeft : Statement .displayLeft := of_any _
theorem displayRight : Statement .displayRight := of_any _
theorem autoscrollOn : Statement .autoscrollOn := of_any _
theorem autoscrollOff : Statement .autoscrollOff := of_any _
theorem entryInc : Statement .entryInc := of_any _
theorem entryDec : Statement .entryDec := of_any _
theorem blinkOn : Statement .blinkOn := of_any _
theorem blinkOff : Statement .blinkOff := of_any _
theorem cursorOn : Statement .cursorOn := of_any _
theorem cursorOff : Statement .cursorOff := of_any _
theorem displayOn : Statement .displayOn := of_any _
theorem displayOff : Statement .displayOff := of_any _
theorem setCursor (line col : Byte) : Statement (.setCursor line col) := of_any _
theorem createChar (slot p0 p1 p2 p3 p4 p5 p6 p7 : Byte) : Statement (.createChar slot p0 p1 p2 p3 p4 p5 p6 p7) := of_any _
theorem selectLcd (n : Byte) : Statement (.selectLcd n) := of_any _
theorem echo : Statement .echo := of_any _
theorem writeN (text : List Byte) : Statement (.writeN text) := of_any _
theorem writeUntil (term : Byte) (text : List Byte) : Statement (.writeUntil term text) := of_any _

end Sys2Proof.Laws.EncodeHead
end

