-- ==== Sys2Proof/Laws/Run.lean ====
section
/-! SUPPORT. What a step keeps, and the runs of the FSM over a header and over the payload bytes
of an operation. The refinement of an operation and the stalls are put together from these. -/

namespace Sys2Proof.Machine

/-! ### What a step keeps -/

/-- What `EXEC` keeps, and that it only appends events. -/
theorem execStmts_frame (l : List Stmt) (p : ExecPos) (s : State) :
    let t := execStmts l p s
    t.busWidth = s.busWidth ∧ t.functionSet = s.functionSet ∧ t.lineBase = s.lineBase ∧
    t.opStream = s.opStream ∧ t.rst = s.rst ∧ t.fault = s.fault ∧ t.fsm ≠ .fault ∧
    ∃ evs, t.trace = s.trace ++ evs := by
  induction l generalizing p s with
  | nil => simp [execStmts]
  | cons st r ih =>
    cases st <;> simp [execStmts, emitBus_eq, emitDelay_eq] <;> exact ih _ _

/-- What any step keeps: the offered stream, and every event emitted before it. -/
theorem tick_stream_trace (inp : PortIn) (s : State) :
    (tick inp s).opStream = s.opStream ∧ ∃ evs, (tick inp s).trace = s.trace ++ evs := by
  unfold tick
  split
  · simp [applyReset]
  · split
    · split
      · unfold acceptOpcode
        split
        · simp
        · split <;> simp [enterExec]
      · simp
    · split
      · unfold acceptHeader
        split <;> simp [enterExec]
      · simp
    · have h := execStmts_frame (todo s.busWidth ‹_›) ‹_› s
      exact ⟨h.2.2.2.1, h.2.2.2.2.2.2.2⟩
    · split <;> simp [acceptPayload]
    · split <;> simp
    · simp

/-- What a step without `rst` keeps: the configuration and the pending reset request. -/
theorem tick_config (inp : PortIn) (s : State) (hr : inp.rst = false) :
    (tick inp s).busWidth = s.busWidth ∧ (tick inp s).functionSet = s.functionSet ∧
    (tick inp s).lineBase = s.lineBase ∧ (tick inp s).rst = s.rst := by
  unfold tick
  simp only [hr, Bool.false_eq_true, ↓reduceIte]
  split
  · split
    · unfold acceptOpcode
      split
      · simp
      · split <;> simp [enterExec]
    · simp
  · split
    · unfold acceptHeader
      split <;> simp [enterExec]
    · simp
  · have h := execStmts_frame (todo s.busWidth ‹_›) ‹_› s
    exact ⟨h.1, h.2.1, h.2.2.1, h.2.2.2.2.1⟩
  · split <;> simp [acceptPayload]
  · split <;> simp
  · simp

theorem takeAccepted_eq (s : State) : ∃ r, takeAccepted s = { s with opStream := r } := by
  unfold takeAccepted
  split
  · exact ⟨_, rfl⟩
  · exact ⟨s.opStream, rfl⟩

/-- A pending reset request, taken. -/
theorem hostTick_reset {s : State} {cfg : Cfg} (h : s.rst = some cfg) :
    hostTick s = applyReset cfg s := by
  have ha : accepts (hostPorts s) s = false := by
    unfold accepts outputs hostPorts
    simp only [h]
    cases s.fsm <;> simp
  have hs : takeAccepted s = s := by simp [takeAccepted, ha]
  rw [hostTick, hs, tick_rst _ _ (by simp [hostPorts, h])]
  simp [hostPorts, h]

theorem nextOperation_eq_some {s : State} {i : Instr} {rest : List Byte} :
    nextOperation s = some (i, rest) ↔
      s.rst = none ∧ s.fsm = .idle ∧ decode s.opStream = .op i rest := by
  constructor
  · intro h
    unfold nextOperation at h
    split at h
    · rename_i hr hf
      split at h <;> simp at h
      rename_i hd
      obtain ⟨rfl, rfl⟩ := h
      exact ⟨hr, hf, hd⟩
    · simp at h
  · rintro ⟨hr, hf, hd⟩
    simp [nextOperation, hr, hf, hd]

theorem goto_self {s : State} {f : Fsm} (h : s.fsm = f) : s.goto f = s := by
  subst h
  rfl

/-! ### Headers -/

section Header
variable {s : State} {op : Op} {r : List Byte} (hr : s.rst = none) (hf : s.fsm = .idle)
include hr hf

theorem header_none (h : op.headerLen = 0) (hs : s.opStream = op.toByte :: r) :
    hostTick s = enterExec op [] { s with opStream := r } := by
  rw [hostTick_idle hr hf hs]
  simp [acceptOpcode, h]

theorem header_one {a : Byte} (h : op.headerLen = 1) (hs : s.opStream = op.toByte :: a :: r) :
    Busy (hostTick s) (enterExec op [a] { s with opStream := r }) := by
  rw [hostTick_idle hr hf hs]
  simp only [acceptOpcode, Op.ofByte_toByte, h]
  refine .step (by simp) ?_
  rw [hostTick_hdr (op := op) (got := []) (b := a) (r := r) (by simpa using hr) (by simp) (by simp)]
  simp [acceptHeader, h]
  exact .refl _

theorem header_two {a b : Byte} (h : op.headerLen = 2)
    (hs : s.opStream = op.toByte :: a :: b :: r) :
    Busy (hostTick s) (enterExec op [a, b] { s with opStream := r }) := by
  rw [hostTick_idle hr hf hs]
  simp only [acceptOpcode, Op.ofByte_toByte, h]
  refine .step (by simp) ?_
  rw [hostTick_hdr (op := op) (got := []) (b := a) (r := b :: r) (by simpa using hr) (by simp)
    (by simp)]
  simp [acceptHeader, h]
  refine .step (by simp) ?_
  rw [hostTick_hdr (op := op) (got := [a]) (b := b) (r := r) (by simpa using hr) (by simp)
    (by simp)]
  simp [acceptHeader, h]
  exact .refl _

end Header

/-- Once its header is in, an operation runs to its end or to its first payload point. -/
theorem enterExec_busy (op : Op) (hdr : List Byte) (s : State) (hr : s.rst = none) :
    Busy (enterExec op hdr s)
      (finish (.payload op hdr (initPayload op hdr)) (headStmts s.busWidth op hdr) s) := by
  have h := exec_busy ⟨op, hdr, initPayload op hdr, none, 0⟩ (enterExec op hdr s) hr rfl
  simpa [todo, stmtsAt, enterExec, finish_goto] using h

/-! ### Payload bytes -/

/-- One payload byte accepted by an operation that counts its payload, with more to come. -/
theorem payload_more {op : Op} {hdr : List Byte} {b : Byte} {r : List Byte} {left : Nat} {s : State}
    (hr : s.rst = none) (hl : 1 < left) (hf : s.fsm = .payload op hdr (.bytes left))
    (hs : s.opStream = b :: r) :
    Busy s ((send b true { s with opStream := r }).goto (.payload op hdr (.bytes (left - 1)))) := by
  refine .step (by simp [hf]) ?_
  rw [hostTick_payload hr hf hs]
  refine (exec_busy ⟨op, hdr, .bytes (left - 1), some b, 0⟩
    (acceptPayload op hdr (.bytes left) b _) (by simpa [acceptPayload] using hr) rfl).trans ?_
  have h0 : ¬ left - 1 = 0 := by omega
  simp only [todo, stmtsAt, List.drop_zero, payloadStmts, finish_send, h0, ↓reduceIte, finish]
  simp only [send_eq, DataSrc.eval, acceptPayload, State.goto, State.emits]
  exact .refl _

/-- The last payload byte of an operation that counts its payload. -/
theorem payload_last {op : Op} {hdr : List Byte} {b : Byte} {r : List Byte} {s : State}
    (hr : s.rst = none) (hf : s.fsm = .payload op hdr (.bytes 1)) (hs : s.opStream = b :: r) :
    Busy s ((send b true { s with opStream := r }).goto .idle) := by
  refine .step (by simp [hf]) ?_
  rw [hostTick_payload hr hf hs]
  refine (exec_busy ⟨op, hdr, .bytes 0, some b, 0⟩
    (acceptPayload op hdr (.bytes 1) b _) (by simpa [acceptPayload] using hr) rfl).trans ?_
  simp only [todo, stmtsAt, List.drop_zero, payloadStmts, finish_send, ↓reduceIte, finish]
  simp only [send_eq, DataSrc.eval, acceptPayload, State.goto, State.emits]
  exact .refl _

/-- One payload byte before the terminator. -/
theorem payload_text {op : Op} {hdr : List Byte} {term b : Byte} {r : List Byte} {s : State}
    (hr : s.rst = none) (hb : b ≠ term) (hf : s.fsm = .payload op hdr (.upTo term))
    (hs : s.opStream = b :: r) :
    Busy s ((send b true { s with opStream := r }).goto (.payload op hdr (.upTo term))) := by
  refine .step (by simp [hf]) ?_
  rw [hostTick_payload hr hf hs]
  refine (exec_busy ⟨op, hdr, .upTo term, some b, 0⟩
    (acceptPayload op hdr (.upTo term) b _) (by simpa [acceptPayload] using hr) rfl).trans ?_
  simp only [todo, stmtsAt, List.drop_zero, payloadStmts, hb, finish_send, ↓reduceIte, finish]
  simp only [send_eq, DataSrc.eval, acceptPayload, State.goto, State.emits]
  exact .refl _

/-- The terminator. -/
theorem payload_end {op : Op} {hdr : List Byte} {term : Byte} {r : List Byte} {s : State}
    (hr : s.rst = none) (hf : s.fsm = .payload op hdr (.upTo term)) (hs : s.opStream = term :: r) :
    Busy s ({ s with opStream := r }.goto .idle) := by
  refine .step (by simp [hf]) ?_
  rw [hostTick_payload hr hf hs]
  refine (exec_busy ⟨op, hdr, .upTo term, some term, 0⟩
    (acceptPayload op hdr (.upTo term) term _) (by simpa [acceptPayload] using hr) rfl).trans ?_
  simp [todo, stmtsAt, payloadStmts, finish, acceptPayload]
  exact .refl _

end Sys2Proof.Machine
end

