-- ==== Sys2Proof/Tests/Slice0.lean ====
section
/-! SUPPORT. The model's own tests. Expected values are the spec's, named beside each test
(spec/95_test_vectors.md, or the rule); the `witness_` theorems show values that meet the
hypotheses of the obligations. -/

namespace Sys2Proof.Tests

open Sys2Proof.Machine

/-- Reset on an 8-bit bus, two lines, 5×8 cells, with chip 0 selected as after `BEGIN`. -/
def st8 : State := { State.reset with enableSelect := 0x04 }
/-- The same on a 4-bit bus. -/
def st4 : State := { State.resetWith ⟨false, true, false⟩ with enableSelect := 0x04 }

/-- The state after one step with these bytes on offer. -/
def ran (s : State) (bs : List Byte) : Option State :=
  match step { s with opStream := bs } with
  | .next t => some t
  | .fault _ => none
  | .refused _ => none

/-- The state a meaning answers. -/
def did (i : Instr) (s : State) : Option State :=
  match exec i s with
  | .next t => some t
  | .fault _ => none
  | .refused _ => none

/-- The trace after one step with these bytes on offer. -/
def traceOf (s : State) (bs : List Byte) : Option (List Event) := (ran s bs).map State.trace

/-- `T(c, d)` of 95_test_vectors.md, the events of one `Strobe`, then `Delay`s. -/
def tx (sel c d : Byte) (us : List Micros) : List Event :=
  [.bus c d, .bus (c ||| sel) d, .bus c d] ++ us.map .delay

/-- The data bytes of the command transactions on an 8-bit bus, in order. -/
def strobed (sel : Byte) (evs : List Event) : List Byte :=
  evs.filterMap (fun e =>
    match e with
    | .bus c d => if c = sel then some d else none
    | .delay _ => none)

/-! ### Decoding, from the words of 30_encoding.md R72 and R78 -/

theorem test_decode_fixed_1 :
    [0x01, 0x02, 0x03, 0x04, 0x05, 0x06, 0x07, 0x08, 0x09].map (decodeTableWord 8) =
      [some .begin, some .clear, some .home, some .cursorLeft, some .cursorRight,
       some .displayLeft, some .displayRight, some .autoscrollOn, some .autoscrollOff] := by
  decide

theorem test_decode_fixed_2 :
    [0x0A, 0x0B, 0x0C, 0x0D, 0x0E, 0x0F, 0x10, 0x11, 0x15].map (decodeTableWord 8) =
      [some .entryInc, some .entryDec, some .blinkOn, some .blinkOff, some .cursorOn,
       some .cursorOff, some .displayOn, some .displayOff, some .echo] := by decide

/-- `SET_CURSOR 1, 5` (95_test_vectors.md W1); the first byte is the low byte of the word. -/
theorem test_decode_set_cursor :
    decodeTableWord 24 0x050112 = some (.setCursor 1 5) ∧
    decode [0x12, 0x01, 0x05] = .op (.setCursor 1 5) [] := by decide +kernel

/-- 95_test_vectors.md W3. -/
theorem test_decode_create_char :
    decode [0x13, 3, 1, 2, 3, 4, 5, 6, 7, 8] = .op (.createChar 3 1 2 3 4 5 6 7 8) [] ∧
    decodeTableWord 8 0x13 = some (.createChar 0 0 0 0 0 0 0 0 0) := by decide

theorem test_decode_select_lcd :
    decode [0x14, 0xFF, 0x01] = .op (.selectLcd 0xFF) [0x01] := by decide

/-- 95_test_vectors.md V72: a payload byte is never an opcode. -/
theorem test_decode_write_n :
    decode [0x16, 0x02, 0x00, 0x00, 0x17, 0x18] = .op (.writeN [0x00, 0x17]) [0x18] ∧
    decodeTableWord 8 0x16 = some (.writeN []) := by decide

/-- 95_test_vectors.md V73: N = 256, low byte first. -/
theorem test_decode_write_n_high_count :
    decode (0x16 :: 0x00 :: 0x01 :: (List.replicate 256 0x41 ++ [0x02])) =
      .op (.writeN (List.replicate 256 0x41)) [0x02] := by decide +kernel

/-- 95_test_vectors.md V75. -/
theorem test_decode_write_until :
    decode [0x17, 0x58, 0x41, 0x00, 0x42, 0x58] = .op (.writeUntil 0x58 [0x41, 0x00, 0x42]) [] ∧
    decodeTableWord 8 0x17 = some (.writeUntil 0 []) := by decide

/-- 95_test_vectors.md V90 to V92, and unfinished operations (V77, V96). -/
theorem test_decode_rejects :
    [0x00, 0x18, 0xFF].map (decodeTableWord 8) = [none, none, none] ∧
    decode [0x17, 0x00, 0x41] = .incomplete ∧ decode [0x12, 0x05] = .incomplete ∧
    decode [] = .incomplete := by decide

/-! ### Ill-formed terms -/

theorem wf_writeN_needs_short_text (text : List Byte) (h : 65535 < text.length) :
    ¬ (Instr.writeN text).WellFormed := fun hw => absurd (of_decide_eq_true hw) (by omega)

theorem test_wf_write_n_too_long : ¬ (Instr.writeN (List.replicate 65536 0)).WellFormed :=
  wf_writeN_needs_short_text _ (by rw [List.length_replicate]; decide)

theorem test_wf_write_until_holds_terminator :
    ¬ (Instr.writeUntil 0x41 [0x40, 0x41]).WellFormed := by decide

/-! ### One step each -/

/-- 95_test_vectors.md V10, W7. -/
theorem test_begin_8bit :
    (traceOf State.reset [0x01]).map delays =
      some [55000, 4100, 100, 100, 40, 40, 1600, 40, 1600, 40, 40] ∧
    (traceOf State.reset [0x01]).map (strobed 0x0C) =
      some [0x30, 0x30, 0x30, 0x38, 0x01, 0x02, 0x06, 0x0C] ∧
    (ran State.reset [0x01]).map State.enableSelect = some 0x04 := by decide

/-- 95_test_vectors.md V11; the narrowing strobe comes fourth and the function set is 0x28. -/
theorem test_begin_4bit :
    (traceOf (State.resetWith ⟨false, true, false⟩) [0x01]).map totalDelay = some 62745 ∧
    (traceOf (State.resetWith ⟨false, true, false⟩) [0x01]).map (strobed 0x0C) =
      some [0x30, 0x30, 0x30, 0x20, 0x20, 0x80, 0x00, 0x10, 0x00, 0x20, 0x00, 0x60, 0x00, 0xC0] := by
  decide

/-- 95_test_vectors.md V20. -/
theorem test_clear :
    traceOf st8 [0x02] = some (tx 4 0 0x01 [40, 1600]) ∧
    traceOf st4 [0x02] = some [tx 4 0 0x00 [1], tx 4 0 0x10 [40, 1600]].flatten
    := by decide

/-- 95_test_vectors.md V21. -/
theorem test_home :
    traceOf st8 [0x03] = some (tx 4 0 0x02 [40, 1600]) ∧
    traceOf st4 [0x03] = some [tx 4 0 0x00 [1], tx 4 0 0x20 [40, 1600]].flatten
    := by decide

/-- 95_test_vectors.md V22 to V25. -/
theorem test_shifts_8bit :
    [0x04, 0x05, 0x06, 0x07].map (fun b => traceOf st8 [b]) =
      [0x10, 0x14, 0x18, 0x1C].map (fun c => some (tx 4 0 c [40])) := by decide

/-- 95_test_vectors.md V22 to V25, 4-bit. -/
theorem test_shifts_4bit :
    [0x04, 0x05, 0x06, 0x07].map (fun b => traceOf st4 [b]) =
      [0x00, 0x40, 0x80, 0xC0].map
        (fun c => some [tx 4 0 0x10 [1], tx 4 0 c [40]].flatten) := by decide

/-- 95_test_vectors.md V30 to V33: shadow after, byte sent. -/
theorem test_entry_mode :
    [0x08, 0x09, 0x0A, 0x0B].map
        (fun b => (ran st8 [b]).map (fun t => (t.entryMode, t.displayControl, strobed 4 t.trace)))
      = [some (0x03, 0x04, [0x07]), some (0x02, 0x04, [0x06]), some (0x02, 0x04, [0x06]),
         some (0x00, 0x04, [0x04])] := by decide

/-- 95_test_vectors.md V34 to V39: shadow after, byte sent. -/
theorem test_display_control :
    [0x0C, 0x0D, 0x0E, 0x0F, 0x10, 0x11].map
        (fun b => (ran st8 [b]).map (fun t => (t.displayControl, t.entryMode, strobed 4 t.trace)))
      = [some (0x05, 0x02, [0x0D]), some (0x04, 0x02, [0x0C]), some (0x06, 0x02, [0x0E]),
         some (0x04, 0x02, [0x0C]), some (0x04, 0x02, [0x0C]), some (0x00, 0x02, [0x08])] := by
  decide

/-- 43_flags.md R171: each clearing operation on a full register leaves the other bits. -/
theorem test_flags_clear_one_bit :
    [0x0D, 0x0F, 0x11].map
        (fun b => (ran { st8 with displayControl := 0x07 } [b]).map State.displayControl)
      = [some 0x06, some 0x05, some 0x03] ∧
    [0x09, 0x0B].map (fun b => (ran { st8 with entryMode := 0x03 } [b]).map State.entryMode)
      = [some 0x02, some 0x01] := by decide

/-- 95_test_vectors.md V50 to V53. -/
theorem test_set_cursor_in_range :
    [[0x12, 0x00, 0x00], [0x12, 0x00, 0x27], [0x12, 0x01, 0x00], [0x12, 0x01, 0x27]].map
        (traceOf st8)
      = [0x80, 0xA7, 0xC0, 0xE7].map (fun c => some (tx 4 0 c [40])) := by decide

/-- 95_test_vectors.md V54 to V56, W2: no event and no change. -/
theorem test_set_cursor_out_of_range :
    [[0x12, 0x00, 0x28], [0x12, 0x02, 0x00], [0x12, 0x01, 0xFF], [0x12, 0xFF, 0xFF]].map (ran st8)
      = [some st8, some st8, some st8, some st8] := by decide

/-- 95_test_vectors.md W3. -/
theorem test_create_char :
    traceOf st8 [0x13, 3, 1, 2, 3, 4, 5, 6, 7, 8] =
      some [tx 4 0 0x58 [40], tx 4 1 1 [2], tx 4 1 2 [2], tx 4 1 3 [2], tx 4 1 4 [2],
        tx 4 1 5 [2], tx 4 1 6 [2], tx 4 1 7 [2], tx 4 1 8 [2]].flatten := by decide

/-- 95_test_vectors.md V60 to V63: slot wrap, and the pattern unmasked. -/
theorem test_create_char_slot_wrap :
    [0x07, 0x08, 0xFF].map
        (fun slot => (traceOf st8 [0x13, slot, 0xFF, 0xE0, 0, 0, 0, 0, 0, 0]).map
          (fun evs => (strobed 4 evs, strobed 5 evs)))
      = [some ([0x78], [0xFF, 0xE0, 0, 0, 0, 0, 0, 0]), some ([0x40], [0xFF, 0xE0, 0, 0, 0, 0, 0, 0]),
         some ([0x78], [0xFF, 0xE0, 0, 0, 0, 0, 0, 0])] := by decide

/-- 95_test_vectors.md V71, V72, V95. -/
theorem test_write_n :
    traceOf st8 [0x16, 0x02, 0x00, 0x00, 0x17] =
      some [tx 4 1 0x00 [2], tx 4 1 0x17 [2]].flatten ∧
    ran st8 [0x16, 0x00, 0x00] = some st8 ∧
    (ran st8 [0x16, 0x02, 0x00, 0x18, 0x00]).map State.fsm = some .idle := by decide

/-- 95_test_vectors.md V75, V76. -/
theorem test_write_until :
    traceOf st8 [0x17, 0x58, 0x41, 0x00, 0x42, 0x58] =
      some [tx 4 1 0x41 [2], tx 4 1 0x00 [2], tx 4 1 0x42 [2]].flatten ∧
    traceOf st4 [0x17, 0x00, 0x41, 0x42, 0x00] =
      some [tx 4 1 0x40 [1], tx 4 1 0x10 [2], tx 4 1 0x40 [1], tx 4 1 0x20 [2]].flatten := by
  decide

/-- 95_test_vectors.md V80 to V83. -/
theorem test_select_lcd :
    [(0x0C, 0x00), (0x04, 0x01), (0x08, 0x02), (0x04, 0xFF)].map
        (fun e => (ran { st8 with enableSelect := e.1 } [0x14, e.2]).map
          (fun t => (t.enableSelect, t.trace)))
      = [some (0x04, []), some (0x08, []), some (0x08, []), some (0x04, [])] := by decide

/-- 95_test_vectors.md V84. -/
theorem test_echo :
    ran { st8 with enableSelect := 0x08 } [0x15] = some { st8 with enableSelect := 0x0C } := by
  decide

/-- 95_test_vectors.md V90 to V92: the byte is consumed, and the fault mark is set. -/
theorem test_illegal_opcode :
    [0x00, 0x18, 0xFF].map (fun b => ran st8 [b, 0x02])
      = [0, 1, 2].map (fun _ : Nat =>
          some { st8 with fsm := .fault, fault := true, opStream := [0x02] }) := by decide

/-- 95_test_vectors.md V93 and V94. -/
theorem test_fault_and_reset :
    ran { st8 with fsm := .fault, fault := true } [0x02]
      = some { st8 with fsm := .fault, fault := true, opStream := [0x02] } ∧
    ran { st8 with fsm := .fault, fault := true, rst := some ⟨false, true, false⟩ } [0x02]
      = some { State.resetWith ⟨false, true, false⟩ with opStream := [0x02] } := by decide

/-- A state with an operation-table word on offer runs it in its next step. -/
theorem test_with_fetch_word :
    ((did .home st8).map State.trace) =
      (match step (st8.withFetchWord 8 0x03) with
       | .next t => some t.trace
       | .fault _ => none
       | .refused _ => none) ∧
    ((State.withFetchWord { st8 with fsm := .fault } 24 0x050112).opStream) = [0x12, 0x01, 0x05] :=
  by decide +kernel

/-! ### The FSM -/

/-- The ports with a byte on offer. -/
def offering (b : Byte) : PortIn := ⟨false, Config.resetCfg, b, true, false⟩
/-- The ports with nothing asserted. -/
def quiet : PortIn := ⟨false, Config.resetCfg, 0, false, false⟩
/-- The ports with the Delay Source acknowledging. -/
def acking : PortIn := ⟨false, Config.resetCfg, 0, false, true⟩
/-- The ports with `rst` asserted and a byte on offer. -/
def resetting : PortIn := ⟨true, ⟨false, false, true⟩, 0x18, true, false⟩

/-- 95_test_vectors.md V77: after `17 00 41` the FSM waits in `PAYLOAD`, and all its events are
out. -/
theorem test_fsm_waits_in_payload :
    (hostTicks 12 { st8 with opStream := [0x17, 0x00, 0x41] }).fsm =
      .payload .writeUntil [0x00] (.upTo 0x00) ∧
    (hostTicks 12 { st8 with opStream := [0x17, 0x00, 0x41] }).trace
      = tx 4 1 0x41 [2] := by decide

/-- 95_test_vectors.md V97: reset in the middle of `BEGIN`, after `Delay(55000)`. -/
theorem test_reset_inside_begin :
    tickRun [offering 0x01, quiet, acking, resetting] State.reset
      = { State.resetWith ⟨false, false, true⟩ with trace := [.delay 55000] } := by decide

/-! ### The assembler: lines of 95_test_vectors.md P1, P2, P3 and W8 -/

theorem test_asm_print :
    (assembleLine "        PRINT \"Hi\"            ; 17 00 48 69 00").toOption.map (Option.map encode)
      = some (some [0x17, 0x00, 0x48, 0x69, 0x00]) := by decide

theorem test_asm_write_n :
    (assembleLine "WRITE_N 0x00, \"!\"").toOption.map (Option.map encode)
      = some (some [0x16, 0x02, 0x00, 0x00, 0x21]) := by decide

theorem test_asm_label_and_alias :
    (assembleLine "start: RESET").toOption = some (some .home) ∧
    (assembleLine "  ; nothing").toOption = some none ∧
    (assembleLine "SET_CURSOR 1, 5").toOption = some (some (.setCursor 1 5)) := by decide

/-- 30_encoding.md R87, R88, R90: what the assembler refuses. -/
theorem test_asm_errors :
    (assembleLine "CLEAR 1").toOption = none ∧ (assembleLine "SELECT_LCD 256").toOption = none ∧
    (assembleLine "PRINT \"A\\0\"").toOption = none ∧
    (assembleLine "WRITE_UNTIL 'X', \"AXB\"").toOption = none := by decide

/-! ### Values that meet the hypotheses of the obligations -/

theorem witness_DecodeReadsBackEveryEncoding :
    (Instr.writeUntil 0x00 [0x41]).WellFormed ∧ (Instr.writeN []).WellFormed ∧
    (Instr.writeN (List.replicate 256 0x41)).WellFormed ∧
    (Instr.createChar 8 1 2 3 4 5 6 7 8).WellFormed := by decide +kernel

theorem witness_DecodedBytesAreItsEncoding :
    decode [0x17, 0x00, 0x41, 0x00, 0x02] = .op (.writeUntil 0x00 [0x41]) [0x02] := by decide

theorem witness_OpcodeMapAndFormats :
    ([] : List Byte).length = (0x00 : Byte).toNat + 256 * (0x00 : Byte).toNat ∧
    (List.replicate 256 (0x41 : Byte)).length = (0x00 : Byte).toNat + 256 * (0x01 : Byte).toNat ∧
    (0x58 : Byte) ∉ [(0x41 : Byte), 0x00] ∧
    (0x00 : Byte).toNat = 0 ∧ 0x18 ≤ (0x18 : Byte).toNat ∧ 0x18 ≤ (0xFF : Byte).toNat := by
  decide +kernel

/-- Both widths occur: the hypotheses of every clause 'on an 8-bit bus' and 'on a 4-bit bus'
(`SendEmitsItsTransactionsAndSettle`, `BeginTotals`, `ClearAndHomeAreLongCommands`,
`ShiftsAreOneCommand`, `CreateCharSendsAddressThenRows`, `WriteNSendsEveryByte`). -/
theorem witness_bus_widths : st8.busWidth = .bw8 ∧ st4.busWidth = .bw4 := by decide

theorem witness_SendIsLatchedOncePerSelectedChip :
    selectLegal 0x04 = true ∧ selectLegal 0x08 = true ∧ selectLegal 0x0C = true ∧
    Chip.chip0.enabled (Lines.mk 0x01 0x41).ctrl = false ∧
    Chip.chip1.enabled (Lines.mk 0x01 0x41).ctrl = false := by decide

/-- `DISPLAY_OFF` is in the list with bit 2 and value 0, `AUTOSCROLL_ON` with bit 0 and 1. -/
theorem witness_FlagIsolation :
    (Instr.displayOff, 2, false) ∈ [(Instr.cursorOff, 1, false), (.displayOff, 2, false)] ∧
    (did .displayOff st8).map State.displayControl = some 0x00 := by decide

/-- The list of `FlagIdempotenceWithRetransmission`, and two different bits of
`FlagOperationsCommute`: one register, and two. -/
theorem witness_FlagOperationsCommute :
    Instr.displayOn ∈ [Instr.displayOn, .displayOff] ∧
    ((Instr.blinkOn, false, 0) : Instr × Bool × Nat).2 ≠ (Instr.cursorOn, false, 1).2 ∧
    ((Instr.blinkOn, false, 0) : Instr × Bool × Nat).2 ≠ (Instr.autoscrollOn, true, 0).2 := by
  decide

theorem witness_ChangedShadowIsTransmittedWhole :
    (did .entryDec st8).map State.entryMode = some 0x00 ∧ st8.entryMode = 0x02 ∧
    (did .displayOff st8).map State.displayControl = some 0x00 ∧ st8.displayControl = 0x04 := by
  decide

/-- Both ends of the range, and just beyond each bound, in lines and in columns. -/
theorem witness_SetCursorSendsOneCommandInRangeOnly :
    (0x00 : Byte).toNat < 2 ∧ (0x01 : Byte).toNat < 2 ∧ 2 ≤ (0x02 : Byte).toNat ∧
    (0x00 : Byte).toNat < 40 ∧ (0x27 : Byte).toNat < 40 ∧ 40 ≤ (0x28 : Byte).toNat := by decide

theorem witness_CursorCommandNeverCarries :
    st8.lineBase = #v[0x80, 0xC0] ∧ (0x00 : Byte).toNat = 0 ∧ (0x01 : Byte).toNat = 1 ∧
    (0x27 : Byte).toNat < 40 := by decide

theorem witness_WriteNSendsEveryByte :
    (List.replicate 256 (0x41 : Byte)).length ≤ 65535 ∧ ([] : List Byte) = [] := by decide +kernel

theorem witness_WriteUntilStopsAtTheTerminator :
    (0x58 : Byte) ∉ [(0x41 : Byte), 0x00, 0x42] ∧ (0x58 : Byte) ∉ ([] : List Byte) ∧
    st8.rst = none ∧ st8.fsm = .idle ∧
    (State.opStream { st8 with opStream := [0x17, 0x58, 0x41, 0x00] }) =
      0x17 :: 0x58 :: [0x41, 0x00] := by decide

theorem witness_SelectLcdSelectsChipZeroOrOne :
    (0x00 : Byte).toNat = 0 ∧ (0x01 : Byte).toNat = 1 ∧ 2 ≤ (0x02 : Byte).toNat ∧
    2 ≤ (0xFF : Byte).toNat := by decide

theorem witness_EchoSelectsBothChips : (did .echo st8).map State.enableSelect = some 0x0C := by
  decide

/-- Every operation of the matrix's four groups answers a next state, so the frame says
something of each; the same runs meet the hypotheses of `OperationsEmitOnlyLegalEvents`. -/
theorem witness_AccessMatrixFrame :
    [Instr.begin, .entryInc, .blinkOn, .selectLcd 1, .echo, .writeUntil 0x00 [0x41]].all
      (fun i => (did i st8).isSome) = true ∧
    (Instr.selectLcd 1).op ∈ [Op.selectLcd, .echo] ∧
    Instr.begin.op ∉ [Op.selectLcd, .echo] ∧ selectLegal st8.enableSelect = true := by decide

theorem witness_MinimumDurations :
    (Instr.writeUntil 0x00 [0x41]).WellFormed ∧ Instr.begin.WellFormed := by decide

/-- Also the hypotheses of `FsmRefinesEveryOperation` and of the `none` cases of the other step
statements. -/
theorem witness_StepRunsTheDecodedOperation :
    st8.rst = none ∧ st8.fsm = .idle ∧
    decode [0x16, 0x01, 0x00, 0x41, 0x02] = .op (.writeN [0x41]) [0x02] := by decide

theorem witness_StepConsumesInOrderAndAppendsEvents :
    (ran st8 [0x02, 0x03]).map State.opStream = some [0x03] := by decide

/-- Illegal bytes at the ends of both ranges, in `IDLE`, and the entry into `FAULT`. -/
theorem witness_IllegalOpcodeEntersFault :
    (offering 0x00).rst = false ∧ (offering 0x00).opValid = true ∧ st8.fsm = .idle ∧
    (0x00 : Byte).toNat = 0 ∧ 0x18 ≤ (0x18 : Byte).toNat ∧ 0x18 ≤ (0xFF : Byte).toNat ∧
    (tick (offering 0x18) st8).fsm = .fault ∧ (did .clear st8).map State.fsm = some .idle := by
  decide

theorem witness_FaultIsStickyUntilReset :
    (tick (offering 0x00) st8).fsm = .fault ∧ quiet.rst = false ∧ resetting.rst = true ∧
    (State.rst { st8 with fsm := .fault, rst := some ⟨true, true, false⟩ }) =
      some ⟨true, true, false⟩ := by decide

theorem witness_ResetLoadsEveryField : resetting.rst = true := by decide

theorem witness_ResetBeatsEverythingElse :
    resetting.rst = true ∧ (State.rst { st8 with rst := some ⟨false, false, true⟩ }).isSome := by
  decide

theorem witness_ConfigurationFixedBetweenResets :
    quiet.rst = false ∧ st8.rst = none ∧ (ran st8 [0x02]).isSome := by decide

/-- A position with a bus write next: the first of `CLEAR`. -/
def clearStart : ExecPos := ⟨.clear, [], .none, none, 0⟩

/-- The states that accept a byte, the wait, and a stall. -/
theorem witness_HandshakeHoldsWithoutAByte :
    (outputs quiet st8).opReady = true ∧
    (outputs quiet { st8 with fsm := .hdr .setCursor [1] }).opReady = true ∧
    (outputs quiet { st8 with fsm := .payload .writeUntil [0] (.upTo 0) }).opReady = true ∧
    quiet.opValid = false ∧ quiet.dlyDone = false ∧ quiet.rst = false ∧
    (outputs (hostPorts st8) st8).opReady = true ∧ st8.opStream = [] := by decide

/-- Every kind of statement is somewhere the next one to execute, and so is the end of a list. -/
theorem witness_FsmTransitions :
    todo .bw8 ⟨.clear, [], .none, none, 5⟩ = [] ∧
    todo .bw8 ⟨.clear, [], .none, none, 2⟩ =
      [.bus false false (.lit 0x01) .whole, .delay 40, .delay 1600] ∧
    (todo .bw8 ⟨.clear, [], .none, none, 3⟩).head? = some (.delay 40) ∧
    (todo .bw4 ⟨.entryDec, [], .none, none, 0⟩).head? = some (.setEM 1 false) ∧
    (todo .bw4 ⟨.displayOn, [], .none, none, 0⟩).head? = some (.setDC 2 true) ∧
    todo .bw8 ⟨.selectLcd, [0x01], .none, none, 0⟩ = [.setSelect 0x08] ∧
    todo .bw8 ⟨.writeUntil, [0x00], .upTo 0x00, none, 0⟩ = [.awaitPayload] := by decide

/-- The opcodes of each kind of transition 1, and header bytes before the last and the last. -/
theorem witness_FsmTransitions_bytes :
    Op.ofByte 0x12 = some .setCursor ∧ 0 < Op.setCursor.headerLen ∧
    Op.ofByte 0x01 = some .begin ∧ Op.begin.headerLen = 0 ∧ Op.ofByte 0x18 = none ∧
    ([] ++ [(0x01 : Byte)]).length ≠ Op.setCursor.headerLen ∧
    ([0x01] ++ [(0x05 : Byte)]).length = Op.setCursor.headerLen := by decide

theorem witness_FsmOutputs :
    quiet.rst = false ∧ (outputs quiet { st8 with fsm := .exec clearStart }).bus = some (0x00, 0x01) ∧
    (outputs quiet { st8 with fsm := .wait 40 clearStart }).dly = some 40 ∧
    (outputs quiet { st8 with fsm := .fault }).fault = true := by decide

/-- A step with a bus write, and one that enters `WAIT`. -/
theorem witness_TickEmitsWhatItsOutputsShow :
    (outputs quiet { st8 with fsm := .exec clearStart }).bus = some (0x00, 0x01) ∧
    (outputs quiet { st8 with fsm := .exec { clearStart with k := 3 } }).bus = none := by decide

theorem witness_RegistersChangeOnlyInExec :
    quiet.rst = false ∧ st8.fsm = .idle ∧ Fsm.idle ≠ .exec clearStart := by decide

/-- `CLEAR` on an 8-bit bus takes nine steps of the FSM: the opcode, three bus writes, two delays
with their acknowledgements, and the end of the list. -/
theorem witness_FsmRefinesEveryOperation :
    (hostTicks 9 { st8 with opStream := [0x02] }).fsm = .idle ∧
    (hostTicks 8 { st8 with opStream := [0x02] }).fsm ≠ .idle := by decide

/-- A run with a stall and a late acknowledgement. -/
theorem witness_TimingOfInputsDoesNotMatter :
    st8.rst = none ∧
    (∀ inp ∈ [quiet, offering 0x03, quiet, quiet, quiet, quiet, quiet, acking], inp.rst = false) ∧
    acceptedBytes [quiet, offering 0x03, quiet, quiet, quiet, quiet, quiet, acking] st8 = [0x03] := by
  decide

/-- The invariant at a state in the middle of an operation, with all its parts in use
(`StepKeepsTheInvariant`, `TickKeepsTheInvariant`). -/
theorem witness_StepKeepsTheInvariant :
    State.Inv { st8 with
      fsm := .wait 40 { clearStart with k := 4 }
      trace := [.bus 0x00 0x01, .bus 0x04 0x01, .bus 0x00 0x01, .delay 40] } :=
  ⟨⟨Config.resetCfg, by decide, by decide⟩, by decide, by decide, by decide, by decide, by decide,
    by decide, by decide⟩

/-- Beginnings of operations of every format that has more than one byte. -/
theorem witness_UnfinishedOperationNeverEnds :
    st8.rst = none ∧ st8.fsm = .idle ∧
    [[0x12], [0x12, 0x05], [0x13, 0x00, 1, 2, 3, 4, 5, 6, 7], [0x14], [0x16, 0x01],
      [0x16, 0x02, 0x00, 0x41], [0x17], [0x17, 0x00, 0x41]].all
        (fun bs => decode bs = .incomplete) = true := by decide

theorem witness_AssembledOperationsAreWellFormed :
    (assembleLine "WRITE_N \"A\"").toOption = some (some (.writeN [0x41])) := by decide

theorem witness_PrintIsWriteUntilZero :
    0x00 ∉ itemBytes [.str [0x48, 0x69]] ∧ 0x00 ∈ itemBytes [.str [0x48], .num 0x00] := by decide

end Sys2Proof.Tests
end

/-! Proofs for the family `00_scope.md`: decoded bytes are the words of their operation; the FSM,
with these words on offer, runs over the header, the statements and the payload, and comes to the
state the operation's meaning gives. -/

namespace Sys2Proof

/-! ### What the decoder reads, back from its words -/

/-- The count bytes of a count are the bytes it was read from (30_encoding.md R76). -/
theorem countBytes_textCount (lo hi : Byte) : countBytes (textCount lo hi).toNat = [lo, hi] := by
  have hlo := lo.isLt
  have hhi := hi.isLt
  have hl : BitVec.ofNat 8 ((lo.toNat + 256 * hi.toNat) % 256) = lo :=
    BitVec.eq_of_toNat_eq (by rw [BitVec.toNat_ofNat]; omega)
  have hh : BitVec.ofNat 8 ((lo.toNat + 256 * hi.toNat) / 256) = hi :=
    BitVec.eq_of_toNat_eq (by rw [BitVec.toNat_ofNat]; omega)
  rw [countBytes, textCount_toNat, hl, hh]

theorem decodeSetCursor_eq_op {r rest : List Byte} {i : Instr}
    (h : decodeSetCursor r = .op i rest) :
    ∃ line col, i = .setCursor line col ∧ r = line :: col :: rest := by
  unfold decodeSetCursor at h
  split at h
  · cases h
    exact ⟨_, _, rfl, rfl⟩
  · cases h

theorem decodeCreateChar_eq_op {r rest : List Byte} {i : Instr}
    (h : decodeCreateChar r = .op i rest) :
    ∃ slot p0 p1 p2 p3 p4 p5 p6 p7, i = .createChar slot p0 p1 p2 p3 p4 p5 p6 p7 ∧
      r = slot :: p0 :: p1 :: p2 :: p3 :: p4 :: p5 :: p6 :: p7 :: rest := by
  unfold decodeCreateChar at h
  split at h
  · cases h
    exact ⟨_, _, _, _, _, _, _, _, _, rfl, rfl⟩
  · cases h

theorem decodeSelectLcd_eq_op {r rest : List Byte} {i : Instr}
    (h : decodeSelectLcd r = .op i rest) : ∃ n, i = .selectLcd n ∧ r = n :: rest := by
  unfold decodeSelectLcd at h
  split at h
  · cases h
    exact ⟨_, rfl, rfl⟩
  · cases h

theorem decodeWriteN_eq_op {r rest : List Byte} {i : Instr} (h : decodeWriteN r = .op i rest) :
    ∃ text, i = .writeN text ∧ text.length ≤ 65535 ∧
      r = countBytes text.length ++ text ++ rest := by
  unfold decodeWriteN at h
  split at h
  · rename_i lo hi bs
    split at h
    · rename_i text _ ht
      cases h
      obtain ⟨rfl, hlen⟩ := takeText_eq_some ht
      have hlt := (textCount lo hi).isLt
      refine ⟨text, rfl, by omega, ?_⟩
      rw [hlen, countBytes_textCount]
      rfl
    · cases h
  · cases h

theorem decodeWriteUntil_eq_op {r rest : List Byte} {i : Instr}
    (h : decodeWriteUntil r = .op i rest) :
    ∃ term text, i = .writeUntil term text ∧ term ∉ text ∧ r = term :: (text ++ term :: rest) := by
  unfold decodeWriteUntil at h
  split at h
  · rename_i term bs
    split at h
    · rename_i text _ ht
      cases h
      obtain ⟨rfl, hm⟩ := takeUntil_eq_some ht
      exact ⟨term, text, rfl, hm, rfl⟩
    · cases h
  · cases h

/-- Operand bytes that decode are the operand bytes of the operation they spell, which is well
formed and has the opcode they were read for. -/
theorem decodeOperands_eq_op {op : Op} {r rest : List Byte} {i : Instr}
    (h : decodeOperands op r = .op i rest) :
    i.WellFormed ∧ i.op = op ∧ r = i.operandBytes ++ rest := by
  cases op with
  | setCursor =>
    obtain ⟨line, col, rfl, rfl⟩ := decodeSetCursor_eq_op h
    exact ⟨rfl, rfl, rfl⟩
  | createChar =>
    obtain ⟨slot, p0, p1, p2, p3, p4, p5, p6, p7, rfl, rfl⟩ := decodeCreateChar_eq_op h
    exact ⟨rfl, rfl, rfl⟩
  | selectLcd =>
    obtain ⟨n, rfl, rfl⟩ := decodeSelectLcd_eq_op h
    exact ⟨rfl, rfl, rfl⟩
  | writeN =>
    obtain ⟨text, rfl, hlen, rfl⟩ := decodeWriteN_eq_op h
    exact ⟨decide_eq_true hlen, rfl, rfl⟩
  | writeUntil =>
    obtain ⟨term, text, rfl, hm, rfl⟩ := decodeWriteUntil_eq_op h
    exact ⟨decide_eq_true hm, rfl, by simp [Instr.operandBytes]⟩
  | _ =>
    cases h
    exact ⟨rfl, rfl, rfl⟩

/-- Bytes that decode are the words of the operation they spell (30_encoding.md R72, R81). -/
theorem encode_of_decode {bs rest : List Byte} {i : Instr} (h : decode bs = .op i rest) :
    i.WellFormed ∧ bs = encode i ++ rest := by
  unfold decode at h
  split at h
  · cases h
  · split at h
    · rename_i b r op hop
      obtain ⟨hwf, rfl, rfl⟩ := decodeOperands_eq_op h
      exact ⟨hwf, by simp [encode, Op.toByte_of_ofByte hop]⟩
    · cases h

/-! ### Header and payload of an operation (30_encoding.md R75) -/

/-- The operand bytes the FSM collects before the operation starts to execute. -/
def Instr.header : Instr → List Byte
  | .createChar slot _ _ _ _ _ _ _ _ => [slot]
  | .writeN text => countBytes text.length
  | .writeUntil term _ => [term]
  | i => i.operandBytes

/-- The operand bytes the operation accepts while it executes. -/
def Instr.payload : Instr → List Byte
  | .createChar _ p0 p1 p2 p3 p4 p5 p6 p7 => [p0, p1, p2, p3, p4, p5, p6, p7]
  | .writeN text => text
  | .writeUntil term text => text ++ [term]
  | _ => []

theorem Instr.header_length (i : Instr) : i.header.length = i.op.headerLen := by
  cases i <;> rfl

theorem Instr.operandBytes_eq (i : Instr) : i.operandBytes = i.header ++ i.payload := by
  cases i <;> rfl

theorem Op.headerLen_le_two (op : Op) : op.headerLen ≤ 2 := by
  cases op <;> decide

end Sys2Proof

namespace Sys2Proof.Machine

/-! ### The bytes on offer -/

/-- `s` with the bytes `r` on offer: what the statements about a step write as a record update. -/
def State.offer (s : State) (r : List Byte) : State := { s with opStream := r }

@[simp] theorem State.offer_busWidth (s : State) (r : List Byte) :
    (s.offer r).busWidth = s.busWidth := rfl

@[simp] theorem State.offer_fsm (s : State) (r : List Byte) : (s.offer r).fsm = s.fsm := rfl

@[simp] theorem State.offer_rst (s : State) (r : List Byte) : (s.offer r).rst = s.rst := rfl

@[simp] theorem State.offer_opStream (s : State) (r : List Byte) : (s.offer r).opStream = r := rfl

@[simp] theorem State.offer_offer (s : State) (q r : List Byte) :
    (s.offer q).offer r = s.offer r := rfl

/-- `Send` does not read the stream (40_transaction.md R104). -/
theorem send_offer (d : Byte) (rs : Bool) (s : State) (r : List Byte) :
    (send d rs s).offer r = send d rs (s.offer r) := by
  simp only [send_eq]
  rfl

/-! ### From `IDLE` to the end of an operation or its first payload byte -/

/-- The FSM collects the whole header and enters `EXEC`. -/
theorem header_busy {s : State} {op : Op} {hdr r : List Byte} (hr : s.rst = none)
    (hf : s.fsm = .idle) (hlen : hdr.length = op.headerLen)
    (hs : s.opStream = op.toByte :: (hdr ++ r)) :
    Busy (hostTick s) (enterExec op hdr (s.offer r)) :=
  match hdr, hlen, hs with
  | [], hlen, hs => header_none hr hf hlen.symm hs ▸ .refl _
  | [_], hlen, hs => header_one hr hf hlen.symm hs
  | [_, _], hlen, hs => header_two hr hf hlen.symm hs
  | _ :: _ :: _ :: _, hlen, _ => by
    have hle := op.headerLen_le_two
    rw [← hlen] at hle
    simp at hle

/-- With the words of an operation on offer, the FSM runs the statements between its header and
its first payload byte, or its end. -/
theorem head_busy {s : State} {i : Instr} {r : List Byte} (hr : s.rst = none) (hf : s.fsm = .idle)
    (hs : s.opStream = encode i ++ r) :
    Busy (hostTick s)
      (finish (.payload i.op i.header (initPayload i.op i.header))
        (headStmts s.busWidth i.op i.header) (s.offer (i.payload ++ r))) := by
  refine (header_busy hr hf i.header_length ?_).trans
    (enterExec_busy i.op i.header (s.offer (i.payload ++ r)) hr)
  simp [hs, encode, Instr.operandBytes_eq]

/-! ### Operations without payload: the statement list does what the meaning does -/

theorem finish_send_end (f : Fsm) (src : DataSrc) (rs : Bool) (s : State) :
    finish f (sendStmts s.busWidth src rs) s = (send (src.eval s) rs s).goto .idle := by
  simpa [finish] using finish_send f src rs [] s

theorem finish_long_end (f : Fsm) (c : Byte) (s : State) :
    finish f (longStmts s.busWidth c) s = (longCmd c s).goto .idle := by
  simpa [finish] using finish_long f c [] s

theorem finish_flagEM (f : Fsm) (bit : Nat) (v : Bool) (s : State) :
    finish f (flagEMStmts s.busWidth bit v) s = (setFlagEM bit v s).goto .idle :=
  finish_send_end f .entryMode false (s.setEM bit v)

theorem finish_flagDC (f : Fsm) (bit : Nat) (v : Bool) (s : State) :
    finish f (flagDCStmts s.busWidth bit v) s = (setFlagDC bit v s).goto .idle :=
  finish_send_end f .displayControl false (s.setDC bit v)

/-! ### What the primitives leave unchanged -/

@[simp] theorem emitDelay_busWidth (us : Micros) (s : State) :
    (emitDelay us s).busWidth = s.busWidth := rfl

@[simp] theorem initStrobe_busWidth (d : Byte) (s : State) :
    (initStrobe d s).busWidth = s.busWidth := rfl

@[simp] theorem send_busWidth (d : Byte) (rs : Bool) (s : State) :
    (send d rs s).busWidth = s.busWidth := by simp [send_eq]

@[simp] theorem send_rst (d : Byte) (rs : Bool) (s : State) : (send d rs s).rst = s.rst := by
  simp [send_eq]

@[simp] theorem send_opStream (d : Byte) (rs : Bool) (s : State) :
    (send d rs s).opStream = s.opStream := by simp [send_eq]

@[simp] theorem longCmd_busWidth (c : Byte) (s : State) :
    (longCmd c s).busWidth = s.busWidth := by simp [longCmd_eq]

@[simp] theorem emitDelay_fsm (us : Micros) (s : State) : (emitDelay us s).fsm = s.fsm := rfl

@[simp] theorem initStrobe_fsm (d : Byte) (s : State) : (initStrobe d s).fsm = s.fsm := rfl

@[simp] theorem send_fsm (d : Byte) (rs : Bool) (s : State) : (send d rs s).fsm = s.fsm := by
  simp [send_eq]

@[simp] theorem longCmd_fsm (c : Byte) (s : State) : (longCmd c s).fsm = s.fsm := by
  simp [longCmd_eq]

@[simp] theorem setFlagEM_fsm (bit : Nat) (v : Bool) (s : State) :
    (setFlagEM bit v s).fsm = s.fsm := by simp [setFlagEM_eq]

@[simp] theorem setFlagDC_fsm (bit : Nat) (v : Bool) (s : State) :
    (setFlagDC bit v s).fsm = s.fsm := by simp [setFlagDC_eq]

@[simp] theorem sendText_fsm (text : List Byte) (s : State) : (sendText text s).fsm = s.fsm := by
  simp [sendText_eq]

@[simp] theorem sendUntil_fsm (term : Byte) (text : List Byte) (s : State) :
    (sendUntil term text s).fsm = s.fsm := by simp [sendUntil_eq]

@[simp] theorem initModeSelect_busWidth (s : State) :
    (initModeSelect s).busWidth = s.busWidth := by simp [initModeSelect]

@[simp] theorem initModeSelect_fsm (s : State) : (initModeSelect s).fsm = s.fsm := by
  simp [initModeSelect]

@[simp] theorem initNarrow_busWidth (s : State) : (initNarrow s).busWidth = s.busWidth := by
  unfold initNarrow
  split <;> rfl

@[simp] theorem initNarrow_fsm (s : State) : (initNarrow s).fsm = s.fsm := by
  unfold initNarrow
  split <;> rfl

/-- No operation's meaning moves the FSM (00_scope.md R14): only its transitions do. -/
theorem exec_fsm {i : Instr} {s t : State} (h : exec i s = .next t) : t.fsm = s.fsm := by
  cases i with
  | begin => cases h; simp
  | clear | home => cases h; exact longCmd_fsm _ s
  | cursorLeft | cursorRight | displayLeft | displayRight => cases h; exact send_fsm _ _ s
  | autoscrollOn | autoscrollOff | entryInc | entryDec => cases h; exact setFlagEM_fsm _ _ s
  | blinkOn | blinkOff | cursorOn | cursorOff | displayOn | displayOff =>
    cases h
    exact setFlagDC_fsm _ _ s
  | setCursor line col =>
    simp only [exec, execSetCursor] at h
    split at h <;> cases h <;> simp
  | createChar slot p0 p1 p2 p3 p4 p5 p6 p7 => cases h; simp
  | selectLcd n =>
    simp only [exec, execSelectLcd] at h
    split at h <;> cases h <;> rfl
  | echo => cases h; rfl
  | writeN text => cases h; exact sendText_fsm text s
  | writeUntil term text => cases h; exact sendUntil_fsm term _ s

/-! ### `BEGIN` -/

theorem finish_send_of_busWidth (f : Fsm) {bw : BusWidth} (src : DataSrc) (rs : Bool)
    (r : List Stmt) {s : State} (h : s.busWidth = bw) :
    finish f (sendStmts bw src rs ++ r) s = finish f r (send (src.eval s) rs s) :=
  h ▸ finish_send f src rs r s

theorem finish_long_of_busWidth (f : Fsm) {bw : BusWidth} (c : Byte) (r : List Stmt) {s : State}
    (h : s.busWidth = bw) : finish f (longStmts bw c ++ r) s = finish f r (longCmd c s) :=
  h ▸ finish_long f c r s

/-- The statements of step 2 of `BEGIN` (41_init.md R123). -/
def modeSelectStmts : List Stmt :=
  initStmts cmdModeSelect usModeSelect1 ++ initStmts cmdModeSelect usModeSelect23
    ++ initStmts cmdModeSelect usModeSelect23

/-- The statements of step 3 of `BEGIN` (41_init.md R124). -/
def narrowStmts : BusWidth → List Stmt
  | .bw8 => []
  | .bw4 => initStmts cmdNarrow usNarrow

theorem beginStmts_eq (bw : BusWidth) :
    beginStmts bw =
      .delay usPowerUp :: (modeSelectStmts ++ (narrowStmts bw
        ++ (sendStmts bw .functionSet false ++ (longStmts bw cmdClear ++ (longStmts bw cmdHome
        ++ (sendStmts bw .entryMode false ++ (sendStmts bw .displayControl false
        ++ [.setSelect selChip0]))))))) := by
  cases bw <;> simp [beginStmts, modeSelectStmts, narrowStmts]

theorem finish_modeSelect (f : Fsm) (r : List Stmt) (s : State) :
    finish f (modeSelectStmts ++ r) s = finish f r (initModeSelect s) := by
  simp [modeSelectStmts, List.append_assoc, finish_init, initModeSelect]

theorem finish_narrow (f : Fsm) {bw : BusWidth} (r : List Stmt) {s : State}
    (h : s.busWidth = bw) : finish f (narrowStmts bw ++ r) s = finish f r (initNarrow s) := by
  unfold initNarrow
  cases bw <;> simp [narrowStmts, h, finish_init]

/-- The seven steps of `BEGIN`, each with its statements (41_init.md R129). -/
theorem finish_begin (f : Fsm) (s : State) :
    ∃ t, execBegin s = .next t ∧ finish f (beginStmts s.busWidth) s = t.goto .idle := by
  refine ⟨_, rfl, ?_⟩
  rw [beginStmts_eq, finish, finish_modeSelect, finish_narrow, finish_send_of_busWidth,
    finish_long_of_busWidth, finish_long_of_busWidth, finish_send_of_busWidth,
    finish_send_of_busWidth]
  · rfl
  all_goals simp

/-! ### The head of an operation: what its statements up to the first payload byte do -/

/-- The statements of an operation without payload do what its meaning does, back to `IDLE`. -/
theorem finish_head_of_no_payload (f : Fsm) (i : Instr) (s : State) (h : i.payload = []) :
    ∃ t, exec i s = .next t ∧ finish f (headStmts s.busWidth i.op i.header) s = t.goto .idle := by
  cases i with
  | begin => exact finish_begin f s
  | clear | home => exact ⟨_, rfl, finish_long_end f _ s⟩
  | cursorLeft | cursorRight | displayLeft | displayRight =>
    exact ⟨_, rfl, finish_send_end f _ false s⟩
  | autoscrollOn | autoscrollOff | entryInc | entryDec => exact ⟨_, rfl, finish_flagEM f _ _ s⟩
  | blinkOn | blinkOff | cursorOn | cursorOff | displayOn | displayOff =>
    exact ⟨_, rfl, finish_flagDC f _ _ s⟩
  | setCursor line col =>
    by_cases hin : cursorInRange line col
    · exact ⟨_, if_pos hin, (congrArg (finish f · s) (if_pos hin)).trans
        (finish_send_end f (.cursor line col) false s)⟩
    · exact ⟨s, if_neg hin, congrArg (finish f · s) (if_neg hin)⟩
  | selectLcd n =>
    cases hn : panelPattern n with
    | some v => exact ⟨s.setSelect v, by simp [exec, execSelectLcd, hn], by
        simp [headStmts, selectLcdStmts, Instr.op, Instr.header, Instr.operandBytes, hn, finish]⟩
    | none => exact ⟨s, by simp [exec, execSelectLcd, hn], by
        simp [headStmts, selectLcdStmts, Instr.op, Instr.header, Instr.operandBytes, hn, finish]⟩
  | echo => exact ⟨_, rfl, rfl⟩
  | writeN text =>
    obtain rfl : text = [] := h
    exact ⟨s, rfl, rfl⟩
  | createChar | writeUntil => simp [Instr.payload] at h

/-- `CREATE_CHAR` sets the CGRAM address and awaits its rows (44_cursor_glyph.md R195). -/
theorem finish_head_createChar (f : Fsm) (slot : Byte) (s : State) :
    finish f (headStmts s.busWidth .createChar [slot]) s =
      (send (cgramCommand slot) false s).goto f :=
  finish_send f (.lit (cgramCommand slot)) false [.awaitPayload] s

/-- `WRITE_N` with a count that is not 0 awaits its text at once (45_text.md R211). -/
theorem finish_head_writeN (f : Fsm) {n : Nat} (s : State) (h0 : n ≠ 0) (hn : n ≤ 65535) :
    finish f (headStmts s.busWidth .writeN (countBytes n)) s = s.goto f := by
  have hcount := textCount_countBytes hn
  have hne : textCount (BitVec.ofNat 8 (n % 256)) (BitVec.ofNat 8 (n / 256)) ≠ 0 :=
    fun hz => h0 (by simpa [hz] using hcount.symm)
  exact congrArg (finish f · s) (if_neg hne)

theorem initPayload_writeN {n : Nat} (hn : n ≤ 65535) :
    initPayload .writeN (countBytes n) = .bytes n :=
  congrArg Payload.bytes (textCount_countBytes hn)

/-! ### Payload bytes: induction over the payload -/

/-- `Send` reads neither the stream nor the FSM state (40_transaction.md R104). -/
theorem send_goto_offer (d : Byte) (rs : Bool) (s : State) (f g : Fsm) (r : List Byte) :
    (send d rs ((s.goto f).offer r)).goto g = (send d rs (s.offer r)).goto g := by
  simp only [send_eq]
  rfl

/-- An operation that counts its payload sends every byte of it, then is back in `IDLE`. -/
theorem payload_counted_busy (op : Op) (hdr : List Byte) {text r : List Byte} {s : State}
    (hr : s.rst = none) (hne : text ≠ []) (hs : s.opStream = text ++ r) :
    Busy (s.goto (.payload op hdr (.bytes text.length)))
      ((sendText text (s.offer r)).goto .idle) := by
  induction text generalizing s with
  | nil => exact absurd rfl hne
  | cons b bs ih =>
    cases bs with
    | nil =>
      rw [sendText, sendText, ← send_goto_offer b true s (.payload op hdr (.bytes 1))]
      exact payload_last hr rfl hs
    | cons c cs =>
      have hrest := ih (s := send b true (s.offer (c :: cs ++ r))) (by simpa using hr) (by simp)
        (by simp)
      rw [send_offer, State.offer_offer,
        ← send_goto_offer b true s (.payload op hdr (.bytes (cs.length + 2)))] at hrest
      exact .trans (payload_more hr (by simp) rfl hs) hrest

/-- An operation with a terminator sends every byte before it, then is back in `IDLE`. -/
theorem payload_until_busy (op : Op) (hdr : List Byte) {term : Byte} {text r : List Byte}
    {s : State} (hr : s.rst = none) (hm : term ∉ text) (hs : s.opStream = text ++ term :: r) :
    Busy (s.goto (.payload op hdr (.upTo term))) ((sendText text (s.offer r)).goto .idle) := by
  induction text generalizing s with
  | nil => exact payload_end hr rfl hs
  | cons b bs ih =>
    obtain ⟨hb, hbs⟩ : term ≠ b ∧ term ∉ bs := by simpa using hm
    have hrest := ih (s := send b true (s.offer (bs ++ term :: r))) (by simpa using hr) hbs
      (by simp)
    rw [send_offer, State.offer_offer, ← send_goto_offer b true s (.payload op hdr (.upTo term))]
      at hrest
    exact .trans (payload_text hr (Ne.symm hb) rfl hs) hrest

/-! ### Every operation, from its opcode byte back to `IDLE` -/

section Operation
variable {s : State} {rest : List Byte} (hr : s.rst = none) (hf : s.fsm = .idle)
include hr hf

theorem createChar_busy {slot p0 p1 p2 p3 p4 p5 p6 p7 : Byte}
    (hs : s.opStream = encode (.createChar slot p0 p1 p2 p3 p4 p5 p6 p7) ++ rest) :
    Busy (hostTick s) ((sendText [p0, p1, p2, p3, p4, p5, p6, p7]
      (send (cgramCommand slot) false (s.offer rest))).goto .idle) := by
  have hhead := head_busy hr hf hs
  have hpay := payload_counted_busy .createChar [slot] (text := [p0, p1, p2, p3, p4, p5, p6, p7])
    (r := rest) (s := send (cgramCommand slot) false
      (s.offer ([p0, p1, p2, p3, p4, p5, p6, p7] ++ rest)))
    (by simpa using hr) (by simp) (by simp)
  rw [← finish_head_createChar, send_offer] at hpay
  exact hhead.trans hpay

theorem writeN_busy {text : List Byte} (hne : text ≠ []) (hlen : text.length ≤ 65535)
    (hs : s.opStream = encode (.writeN text) ++ rest) :
    Busy (hostTick s) ((sendText text (s.offer rest)).goto .idle) := by
  have hhead := head_busy hr hf hs
  have hpay := payload_counted_busy .writeN (countBytes text.length) (s := s.offer (text ++ rest))
    (r := rest) hr hne rfl
  rw [← finish_head_writeN _ _ (mt List.length_eq_zero_iff.1 hne) hlen, ← initPayload_writeN hlen]
    at hpay
  exact hhead.trans hpay

theorem writeUntil_busy {term : Byte} {text : List Byte} (hm : term ∉ text)
    (hs : s.opStream = encode (.writeUntil term text) ++ rest) :
    Busy (hostTick s) ((sendText text (s.offer rest)).goto .idle) :=
  (head_busy hr hf hs).trans (payload_until_busy .writeUntil [term]
    (s := s.offer (text ++ [term] ++ rest)) hr hm (by simp))

/-- With the words of an operation on offer, the FSM takes them and comes to the state the
operation's meaning gives. -/
theorem operation_busy {i : Instr} (hwf : i.WellFormed) (hs : s.opStream = encode i ++ rest) :
    ∃ t, exec i (s.offer rest) = .next t ∧ Busy (hostTick s) (t.goto .idle) := by
  by_cases hp : i.payload = []
  · obtain ⟨t, hexec, hfin⟩ := finish_head_of_no_payload
      (.payload i.op i.header (initPayload i.op i.header)) i (s.offer rest) hp
    have hhead := head_busy hr hf hs
    rw [hp] at hhead
    exact ⟨t, hexec, hfin ▸ hhead⟩
  · cases i with
    | createChar slot p0 p1 p2 p3 p4 p5 p6 p7 => exact ⟨_, rfl, createChar_busy hr hf hs⟩
    | writeN text => exact ⟨_, rfl, writeN_busy hr hf hp (of_decide_eq_true hwf) hs⟩
    | writeUntil term text =>
      have hm : term ∉ text := of_decide_eq_true hwf
      refine ⟨sendText text (s.offer rest), ?_, writeUntil_busy hr hf hm hs⟩
      simp [exec, execWriteUntil, sendUntil_append _ _ _ _ hm, sendText_eq]
    | _ => exact absurd rfl hp

end Operation

/-- Settles O31: with nothing pending but the operation, `nextOperation` is that operation. -/
theorem stepRunsTheDecodedOperation : Obligations.StepRunsTheDecodedOperation := by
  intro s i rest hr hf hd
  have hnext : nextOperation s = some (i, rest) := nextOperation_eq_some.2 ⟨hr, hf, hd⟩
  rw [step, hnext]

/-- Settles O47: decoded bytes are the operation's words, over which the FSM runs busily, from
its first transition on, to the state the meaning gives. -/
theorem fsmRefinesEveryOperation : Obligations.FsmRefinesEveryOperation := by
  intro s i rest hr hf hd
  obtain ⟨hwf, hs⟩ := encode_of_decode hd
  obtain ⟨t, hexec, hbusy⟩ := operation_busy hr hf hwf hs
  have hidle : t.fsm = .idle := (exec_fsm hexec).trans hf
  rw [goto_self hidle] at hbusy
  obtain ⟨n, hn, hmid⟩ := hbusy.ticks
  refine ⟨n + 1, t, by omega, hexec, hn, hidle, fun m hpos hlt => ?_⟩
  obtain ⟨k, rfl⟩ : ∃ k, m = k + 1 := ⟨m - 1, by omega⟩
  exact hmid k (by omega)

end Sys2Proof.Machine

/-! Proofs for the family `10_state.md`: what the meaning of an operation can change, what a step
of the FSM can do in each state, and the invariant `State.Inv` over both levels. -/

namespace Sys2Proof.Machine

/-! ### Legal events (30_encoding.md R84, 70_reset_and_hazards.md R298) -/

theorem ctrlByte_mem_legalCtrls (rs : Bool) : ctrlByte rs ∈ legalCtrls := by
  cases rs <;> decide

theorem ctrlByte_or_mem_legalCtrls (rs : Bool) {sel : Byte} (h : selectLegal sel = true) :
    ctrlByte rs ||| sel ∈ legalCtrls := by
  have hsel : sel = selChip0 ∨ sel = selChip1 ∨ sel = selBoth := by simpa [selectLegal] using h
  obtain rfl | rfl | rfl := hsel <;> cases rs <;> decide

theorem usSettle_mem_delayTable (rs : Bool) : usSettle rs ∈ delayTable := by
  cases rs <;> decide

/-- From `s` to `t` only the trace grows, and under a legal selector by legal events only. -/
def EmitsLegally (s t : State) : Prop :=
  ∃ evs, t = s.emits evs ∧ (selectLegal s.enableSelect = true → ∀ e ∈ evs, e.legal = true)

theorem EmitsLegally.refl (s : State) : EmitsLegally s s := ⟨[], by simp, by simp⟩

theorem EmitsLegally.trans {s t u : State} (h₁ : EmitsLegally s t) (h₂ : EmitsLegally t u) :
    EmitsLegally s u := by
  obtain ⟨a, rfl, ha⟩ := h₁
  obtain ⟨b, rfl, hb⟩ := h₂
  exact ⟨a ++ b, by simp, fun hs => List.forall_mem_append.2 ⟨ha hs, hb hs⟩⟩

theorem emitsLegally_delay {us : Micros} (h : us ∈ delayTable) (s : State) :
    EmitsLegally s (emitDelay us s) :=
  ⟨[.delay us], rfl, fun _ => by simpa [Event.legal] using h⟩

theorem emitsLegally_strobe (rs : Bool) (d : Byte) (s : State) :
    EmitsLegally s (strobe rs d s) :=
  ⟨_, strobe_eq rs d s, fun hs => by
    simp [strobeEvents, Event.legal, ctrlByte_mem_legalCtrls, ctrlByte_or_mem_legalCtrls rs hs]⟩

theorem emitsLegally_send (d : Byte) (rs : Bool) (s : State) : EmitsLegally s (send d rs s) := by
  have hsettle := emitsLegally_delay (usSettle_mem_delayTable rs)
  unfold send
  cases s.busWidth with
  | bw8 => exact (emitsLegally_strobe rs d s).trans (hsettle _)
  | bw4 =>
    exact (((emitsLegally_strobe rs _ s).trans (emitsLegally_delay (by decide) _)).trans
      (emitsLegally_strobe rs _ _)).trans (hsettle _)

theorem emitsLegally_longCmd (c : Byte) (s : State) : EmitsLegally s (longCmd c s) :=
  (emitsLegally_send c false s).trans (emitsLegally_delay (by decide) _)

theorem emitsLegally_sendText (text : List Byte) (s : State) :
    EmitsLegally s (sendText text s) := by
  induction text generalizing s with
  | nil => exact .refl s
  | cons b bs ih => exact (emitsLegally_send b true s).trans (ih _)

theorem emitsLegally_sendUntil (term : Byte) (text : List Byte) (s : State) :
    EmitsLegally s (sendUntil term text s) := by
  induction text generalizing s with
  | nil => exact .refl s
  | cons b bs ih =>
    unfold sendUntil
    split
    · exact .refl s
    · exact (emitsLegally_send b true s).trans (ih _)

/-- The mode-select primitive, once, with its delay (41_init.md R122). -/
theorem emitsLegally_initStep (d : Byte) {us : Micros} (h : us ∈ delayTable) (s : State) :
    EmitsLegally s (emitDelay us (initStrobe d s)) :=
  (emitsLegally_strobe false d s).trans (emitsLegally_delay h _)

theorem emitsLegally_initModeSelect (s : State) : EmitsLegally s (initModeSelect s) :=
  ((emitsLegally_initStep _ (by decide) s).trans (emitsLegally_initStep _ (by decide) _)).trans
    (emitsLegally_initStep _ (by decide) _)

theorem emitsLegally_initNarrow (s : State) : EmitsLegally s (initNarrow s) := by
  unfold initNarrow
  split
  · exact .refl s
  · exact emitsLegally_initStep _ (by decide) s

/-- `BEGIN` emits its steps and then selects chip 0 (41_init.md R129). -/
theorem execBegin_eq (s : State) :
    ∃ u, EmitsLegally s u ∧ execBegin s = .next (u.setSelect selChip0) :=
  ⟨_, (((((((emitsLegally_delay (by decide) s).trans (emitsLegally_initModeSelect _)).trans
    (emitsLegally_initNarrow _)).trans (emitsLegally_send _ _ _)).trans
    (emitsLegally_longCmd _ _)).trans (emitsLegally_longCmd _ _)).trans
    (emitsLegally_send _ _ _)).trans (emitsLegally_send _ _ _), rfl⟩

/-! ### What the meaning of an operation can do (10_state.md R34) -/

/-- Every way the meaning of `i` can change the state `s`. -/
inductive ExecEffect (i : Instr) (s : State) : State → Prop where
  /-- One flag of `entry_mode`, transmitted. -/
  | entryMode (hop : i.op ∈ [Op.autoscrollOn, .autoscrollOff, .entryInc, .entryDec])
      {bit : Nat} (hbit : bit < 2) (v : Bool) : ExecEffect i s (setFlagEM bit v s)
  /-- One flag of `display_control`, transmitted. -/
  | displayControl
      (hop : i.op ∈ [Op.blinkOn, .blinkOff, .cursorOn, .cursorOff, .displayOn, .displayOff])
      {bit : Nat} (hbit : bit < 3) (v : Bool) : ExecEffect i s (setFlagDC bit v s)
  /-- The handshake, and then chip 0. -/
  | begin (hop : i.op = .begin) {u : State} (hu : EmitsLegally s u) :
      ExecEffect i s (u.setSelect selChip0)
  /-- The selector only. -/
  | select (hop : i.op ∈ [Op.selectLcd, .echo]) {v : Byte} (hv : selectLegal v = true) :
      ExecEffect i s (s.setSelect v)
  /-- Events only. -/
  | events (hop : i.op ∉ [Op.selectLcd, .echo]) {t : State} (ht : EmitsLegally s t) :
      ExecEffect i s t
  /-- Nothing: a panel index that names no chip. -/
  | nothing : ExecEffect i s s

theorem panelPattern_legal {n v : Byte} (h : panelPattern n = some v) : selectLegal v = true := by
  unfold panelPattern at h
  split at h <;> cases h <;> decide

/-- What a next state of an operation's meaning can be. -/
theorem exec_effect {i : Instr} {s t : State} (h : exec i s = .next t) : ExecEffect i s t := by
  cases i with
  | begin =>
    obtain ⟨u, hu, he⟩ := execBegin_eq s
    cases he.symm.trans h
    exact .begin rfl hu
  | clear | home => cases h; exact .events (by decide) (emitsLegally_longCmd _ s)
  | cursorLeft | cursorRight | displayLeft | displayRight =>
    cases h
    exact .events (by decide) (emitsLegally_send _ false s)
  | autoscrollOn | autoscrollOff | entryInc | entryDec =>
    cases h
    exact .entryMode (by decide) (by decide) _
  | blinkOn | blinkOff | cursorOn | cursorOff | displayOn | displayOff =>
    cases h
    exact .displayControl (by decide) (by decide) _
  | setCursor line col =>
    simp only [exec, execSetCursor] at h
    split at h <;> cases h
    · exact .events (by simp [Instr.op]) (emitsLegally_send _ false s)
    · exact .nothing
  | createChar slot p0 p1 p2 p3 p4 p5 p6 p7 =>
    cases h
    exact .events (by simp [Instr.op])
      ((emitsLegally_send _ false s).trans (emitsLegally_sendText _ _))
  | selectLcd n =>
    simp only [exec, execSelectLcd] at h
    split at h <;> cases h
    · exact .select (by simp [Instr.op]) (panelPattern_legal ‹_›)
    · exact .nothing
  | echo => cases h; exact .select (by decide) (by decide)
  | writeN text => cases h; exact .events (by simp [Instr.op]) (emitsLegally_sendText text s)
  | writeUntil term text =>
    cases h
    exact .events (by simp [Instr.op]) (emitsLegally_sendUntil term _ s)

/-- Settles O28, by the ways an operation's meaning can change the state. -/
theorem accessMatrixFrame : Obligations.AccessMatrixFrame := by
  intro i s t h
  cases exec_effect h with
  | entryMode hop =>
    have hpanel : i.op ∉ [Op.selectLcd, .echo] :=
      (by decide : ∀ op ∈ [Op.autoscrollOn, .autoscrollOff, .entryInc, .entryDec],
        op ∉ [Op.selectLcd, .echo]) _ hop
    simp [setFlagEM_eq, hop, hpanel]
  | displayControl hop =>
    have hpanel : i.op ∉ [Op.selectLcd, .echo] :=
      (by decide : ∀ op ∈ [Op.blinkOn, .blinkOff, .cursorOn, .cursorOff, .displayOn, .displayOff],
        op ∉ [Op.selectLcd, .echo]) _ hop
    simp [setFlagDC_eq, hop, hpanel]
  | begin hop hu =>
    obtain ⟨evs, rfl, -⟩ := hu
    simp [hop]
  | select hop => simp [hop]
  | events hop ht =>
    obtain ⟨evs, rfl, -⟩ := ht
    simp [hop]
  | nothing => simp

/-- Settles O20: only a flag operation changes a shadow, and it transmits it. -/
theorem changedShadowIsTransmittedWhole : Obligations.ChangedShadowIsTransmittedWhole := by
  intro i s t h
  cases exec_effect h with
  | entryMode => simp [setFlagEM_eq, entryModeByte]
  | displayControl => simp [setFlagDC_eq, displayControlByte]
  | begin _ hu =>
    obtain ⟨evs, rfl, -⟩ := hu
    simp
  | select => simp
  | events _ ht =>
    obtain ⟨evs, rfl, -⟩ := ht
    simp
  | nothing => simp

/-! ### Bits of the shadows (43_flags.md R160) -/

theorem getLsbD_setBit (reg : Byte) (bit : Nat) (v : Bool) {k : Nat} (hk : k < 8) :
    (setBit reg bit v).getLsbD k = if k = bit then v else reg.getLsbD k := by
  obtain h | rfl | h := Nat.lt_trichotomy k bit
  · simp [setBit, hk, h, h.ne]
  · simp [setBit, hk]
  · have h1 : ¬ k < bit := by omega
    have h0 : k - bit ≠ 0 := by omega
    simp [setBit, hk, h1, h.ne', h0]

/-- Reserved bits, the mask `m`, stay 0 when a flag outside the mask is written. -/
theorem setBit_and_eq_zero {reg m : Byte} {bit : Nat} (h : reg &&& m = 0)
    (hm : m.getLsbD bit = false) (v : Bool) : setBit reg bit v &&& m = 0 := by
  apply BitVec.eq_of_getLsbD_eq
  intro k hk
  rw [BitVec.getLsbD_and, getLsbD_setBit reg bit v hk]
  split
  · next hb => simp [hb, hm]
  · rw [← BitVec.getLsbD_and, h]

/-! ### The invariant over the updates of the state -/

section Invariant
variable {s t : State} (h : s.Inv)
include h

theorem State.Inv.goto {f : Fsm} (hf : f.ok s.busWidth = true)
    (hfault : s.fault = decide (f = .fault)) : (s.goto f).Inv where
  __ := h
  fsm := hf
  fault := hfault

theorem State.Inv.emits {evs : List Event} (hevs : ∀ e ∈ evs, e.legal = true) :
    (s.emits evs).Inv where
  __ := h
  trace := List.forall_mem_append.2 ⟨h.trace, hevs⟩

theorem State.Inv.emitsLegally (ht : EmitsLegally s t) : t.Inv := by
  obtain ⟨evs, rfl, hevs⟩ := ht
  exact h.emits (hevs h.select)

theorem State.Inv.setEM {bit : Nat} (hbit : bit < 2) (v : Bool) : (s.setEM bit v).Inv where
  __ := h
  entryMode := setBit_and_eq_zero h.entryMode (by interval_cases bit <;> decide) v

theorem State.Inv.setDC {bit : Nat} (hbit : bit < 3) (v : Bool) : (s.setDC bit v).Inv where
  __ := h
  displayControl := setBit_and_eq_zero h.displayControl (by interval_cases bit <;> decide) v

theorem State.Inv.setSelect {v : Byte} (hv : selectLegal v = true) : (s.setSelect v).Inv where
  __ := h
  select := hv

theorem State.Inv.offer (r : List Byte) : (s.offer r).Inv where
  __ := h

theorem raiseIllegalOp_inv : (raiseIllegalOp s).Inv where
  __ := h
  fsm := rfl
  fault := rfl

/-- The meaning of an operation keeps the invariant. -/
theorem exec_inv {i : Instr} (he : exec i s = .next t) : t.Inv := by
  cases exec_effect he with
  | entryMode _ hbit v => exact (h.setEM hbit v).emitsLegally (emitsLegally_send _ false _)
  | displayControl _ hbit v => exact (h.setDC hbit v).emitsLegally (emitsLegally_send _ false _)
  | begin _ hu => exact (h.emitsLegally hu).setSelect (by decide)
  | select _ hv => exact h.setSelect hv
  | events _ ht => exact h.emitsLegally ht
  | nothing => exact h

end Invariant

/-- Reset establishes the invariant in every state with a legal trace (10_state.md R33). -/
theorem applyReset_inv (cfg : Cfg) {s : State} (ht : ∀ e ∈ s.trace, e.legal = true) :
    (applyReset cfg s).Inv where
  config := ⟨cfg, rfl, rfl⟩
  entryMode := by simp
  displayControl := by simp
  select := rfl
  lineBase := rfl
  fsm := rfl
  fault := rfl
  trace := ht

/-- Settles O51: a reset state is a reset of itself, and its trace is empty. -/
theorem resetHasTheInvariant : Obligations.ResetHasTheInvariant :=
  fun cfg => applyReset_inv cfg (s := State.resetWith cfg) (List.forall_mem_nil _)

/-! ### The statement lists hold legal statements only -/

/-- A statement that keeps the invariant, at a position that expects the payload `pay`. -/
def Stmt.legal (pay : Payload) : Stmt → Bool
  | .bus _ _ _ _ => true
  | .delay us => decide (us ∈ delayTable)
  | .setEM bit _ => decide (bit < 2)
  | .setDC bit _ => decide (bit < 3)
  | .setSelect v => selectLegal v
  | .awaitPayload => pay.waiting

section Legal
variable (pay : Payload) (bw : BusWidth)

@[simp] theorem strobeStmts_legal (rs : Bool) (src : DataSrc) (part : Part) :
    (strobeStmts rs src part).all (Stmt.legal pay) = true := rfl

@[simp] theorem sendStmts_legal (src : DataSrc) (rs : Bool) :
    (sendStmts bw src rs).all (Stmt.legal pay) = true := by
  cases bw <;> cases rs <;> rfl

@[simp] theorem longStmts_legal (c : Byte) :
    (longStmts bw c).all (Stmt.legal pay) = true := by
  cases bw <;> rfl

@[simp] theorem beginStmts_legal : (beginStmts bw).all (Stmt.legal pay) = true := by
  cases bw <;> rfl

theorem flagEMStmts_legal {bit : Nat} (hbit : bit < 2) (v : Bool) :
    (flagEMStmts bw bit v).all (Stmt.legal pay) = true := by
  simp [flagEMStmts, Stmt.legal, hbit]

theorem flagDCStmts_legal {bit : Nat} (hbit : bit < 3) (v : Bool) :
    (flagDCStmts bw bit v).all (Stmt.legal pay) = true := by
  simp [flagDCStmts, Stmt.legal, hbit]

theorem setCursorStmts_legal (hdr : List Byte) :
    (setCursorStmts bw hdr).all (Stmt.legal pay) = true := by
  unfold setCursorStmts
  split
  · split <;> simp
  · rfl

theorem selectLcdStmts_legal (hdr : List Byte) :
    (selectLcdStmts hdr).all (Stmt.legal pay) = true := by
  unfold selectLcdStmts
  split
  · split
    · simp [Stmt.legal, panelPattern_legal ‹_›]
    · rfl
  · rfl

theorem createCharStmts_legal (hdr : List Byte) :
    (createCharStmts bw hdr).all (Stmt.legal (.bytes 8)) = true := by
  unfold createCharStmts
  split <;> simp [Stmt.legal, Payload.waiting]

theorem writeNStmts_legal (hdr : List Byte) :
    (writeNStmts hdr).all (Stmt.legal (initPayload .writeN hdr)) = true := by
  unfold writeNStmts
  split
  · next lo hi =>
    split
    · rfl
    · next h0 =>
      have hpos : 0 < (textCount lo hi).toNat := by bv_omega
      simp [Stmt.legal, initPayload, Payload.waiting, hpos]
  · rfl

/-- A list awaits a payload byte only where one is still expected (30_encoding.md R75). -/
theorem headStmts_legal {op : Op} {hdr : List Byte} (h : hdr.length = op.headerLen) :
    (headStmts bw op hdr).all (Stmt.legal (initPayload op hdr)) = true := by
  cases op with
  | begin => exact beginStmts_legal _ bw
  | clear | home => exact longStmts_legal _ bw _
  | cursorLeft | cursorRight | displayLeft | displayRight => exact sendStmts_legal _ bw _ false
  | autoscrollOn | autoscrollOff | entryInc | entryDec =>
    exact flagEMStmts_legal _ bw (by decide) _
  | blinkOn | blinkOff | cursorOn | cursorOff | displayOn | displayOff =>
    exact flagDCStmts_legal _ bw (by decide) _
  | setCursor => exact setCursorStmts_legal _ bw hdr
  | createChar => exact createCharStmts_legal bw hdr
  | selectLcd => exact selectLcdStmts_legal _ hdr
  | echo => rfl
  | writeN => exact writeNStmts_legal hdr
  | writeUntil =>
    obtain ⟨term, rfl⟩ := List.length_eq_one_iff.1 h
    rfl

theorem payloadStmts_legal (b : Byte) :
    (payloadStmts bw pay b).all (Stmt.legal pay) = true := by
  cases pay with
  | none => rfl
  | bytes left =>
    by_cases h0 : left = 0
    · simp [payloadStmts, h0]
    · simp [payloadStmts, h0, Stmt.legal, Payload.waiting, Nat.pos_of_ne_zero h0]
  | upTo term =>
    by_cases hb : b = term
    · simp [payloadStmts, hb]
    · simp [payloadStmts, hb, Stmt.legal, Payload.waiting]

end Legal

/-! ### FSM contexts -/

theorem ExecPos.ok_iff {bw : BusWidth} {p : ExecPos} :
    p.ok bw = true ↔ p.hdr.length = p.op.headerLen ∧ p.pay.fits p.op = true ∧
      p.k ≤ (stmtsAt bw p).length ∧ (p.cur = none → p.pay = initPayload p.op p.hdr) ∧
      (p.cur ≠ none → p.pay ≠ .none) := by
  unfold ExecPos.ok
  cases p.cur <;> simp [and_assoc]

theorem stmtsAt_legal {bw : BusWidth} {p : ExecPos} (h : p.ok bw = true) :
    (stmtsAt bw p).all (Stmt.legal p.pay) = true := by
  obtain ⟨hlen, -, -, hhead, -⟩ := ExecPos.ok_iff.1 h
  unfold stmtsAt
  split
  · next hcur => exact hhead hcur ▸ headStmts_legal bw hlen
  · exact payloadStmts_legal p.pay bw _

section Todo
variable {bw : BusWidth} {p : ExecPos} {st : Stmt} {r : List Stmt} (hl : todo bw p = st :: r)
include hl

theorem stmtsAt_getElem?_of_todo : (stmtsAt bw p)[p.k]? = some st := by
  have h := congrArg List.head? hl
  simpa [todo, List.head?_drop] using h

/-- The next statement of a reachable position is legal. -/
theorem legal_of_todo (hp : p.ok bw = true) : st.legal p.pay = true :=
  List.all_eq_true.1 (stmtsAt_legal hp) st (List.mem_of_getElem? (stmtsAt_getElem?_of_todo hl))

/-- Behind the next statement of a reachable position is a reachable position. -/
theorem ExecPos.succ_ok (hp : p.ok bw = true) : p.succ.ok bw = true := by
  obtain ⟨hlen, hfits, -, hcur⟩ := ExecPos.ok_iff.1 hp
  have hk : p.k < (stmtsAt bw p).length :=
    (List.getElem?_eq_some_iff.1 (stmtsAt_getElem?_of_todo hl)).1
  exact ExecPos.ok_iff.2 ⟨hlen, hfits, hk, hcur⟩

/-- `WAIT` holds the duration of the delay just before the position it resumes at. -/
theorem wait_ok {us : Micros} (hst : st = .delay us) (hp : p.ok bw = true) :
    (Fsm.wait us p.succ).ok bw = true := by
  subst hst
  have hget : (stmtsAt bw p.succ)[p.k]? = some (.delay us) := stmtsAt_getElem?_of_todo hl
  simpa [Fsm.ok, ExecPos.succ_ok hl hp] using ⟨Nat.succ_pos p.k, hget⟩

end Todo

/-- The payload context at the end of a header (30_encoding.md R75, R76). -/
theorem initPayload_fits {op : Op} {hdr : List Byte} (h : hdr.length = op.headerLen) :
    (initPayload op hdr).fits op = true := by
  cases op with
  | writeN =>
    obtain ⟨lo, hi, rfl⟩ := List.length_eq_two.1 h
    have hlt := (textCount lo hi).isLt
    exact decide_eq_true (by omega)
  | writeUntil =>
    obtain ⟨term, rfl⟩ := List.length_eq_one_iff.1 h
    rfl
  | _ => rfl

theorem afterByte_fits {op : Op} {pay : Payload} (h : pay.fits op = true) :
    pay.afterByte.fits op = true := by
  cases pay with
  | none | upTo => exact h
  | bytes left =>
    cases op with
    | createChar | writeN =>
      have hle := of_decide_eq_true h
      exact decide_eq_true (by omega)
    | _ => exact h

theorem afterByte_ne_none {pay : Payload} (h : pay.waiting = true) : pay.afterByte ≠ .none := by
  cases pay <;> simp [Payload.waiting, Payload.afterByte] at *

/-! ### The invariant over the transitions of the FSM (10_state.md R30) -/

section Transitions
variable {s : State} (h : s.Inv)
include h

theorem State.Inv.fault_eq_false (hf : s.fsm ≠ .fault) : s.fault = false := by
  simp [h.fault, hf]

theorem enterExec_inv {op : Op} {hdr : List Byte} (hlen : hdr.length = op.headerLen)
    (hf : s.fault = false) : (enterExec op hdr s).Inv :=
  h.goto (ExecPos.ok_iff.2 ⟨hlen, initPayload_fits hlen, Nat.zero_le _, by simp, by simp⟩) hf

theorem acceptOpcode_inv (b : Byte) (hf : s.fault = false) : (acceptOpcode b s).Inv := by
  unfold acceptOpcode
  split
  · exact raiseIllegalOp_inv h
  · next op _ =>
    split
    · next h0 => exact enterExec_inv h h0.symm hf
    · next h0 => exact h.goto (decide_eq_true (Nat.pos_of_ne_zero h0)) hf

theorem acceptHeader_inv {op : Op} {got : List Byte} (hgot : got.length < op.headerLen)
    (b : Byte) (hf : s.fault = false) : (acceptHeader op got b s).Inv := by
  unfold acceptHeader
  split
  · next hlen => exact enterExec_inv h hlen hf
  · next hlen =>
    have hlt : (got ++ [b]).length < op.headerLen := by
      simp at hlen ⊢
      omega
    exact h.goto (decide_eq_true hlt) hf

theorem acceptPayload_inv {op : Op} {hdr : List Byte} {pay : Payload}
    (hok : (Fsm.payload op hdr pay).ok s.busWidth = true) (b : Byte) (hf : s.fault = false) :
    (acceptPayload op hdr pay b s).Inv := by
  obtain ⟨⟨hlen, hfits⟩, hwait⟩ : (hdr.length = op.headerLen ∧ pay.fits op = true) ∧
    pay.waiting = true := by simpa [Fsm.ok] using hok
  exact h.goto (ExecPos.ok_iff.2
    ⟨hlen, afterByte_fits hfits, Nat.zero_le _, by simp, fun _ => afterByte_ne_none hwait⟩) hf

end Transitions

theorem Stmt.ctrl_mem_legalCtrls {s : State} (hs : selectLegal s.enableSelect = true)
    (rs hi : Bool) : Stmt.ctrl s rs hi ∈ legalCtrls := by
  cases hi with
  | false => exact ctrlByte_mem_legalCtrls rs
  | true => exact ctrlByte_or_mem_legalCtrls rs hs

/-- `EXEC` keeps the invariant: by induction over the assignments before the statement that ends
the step. -/
theorem execStmts_inv {l : List Stmt} {p : ExecPos} {s : State} (h : s.Inv)
    (hf : s.fault = false) (hp : p.ok s.busWidth = true) (hl : todo s.busWidth p = l) :
    (execStmts l p s).Inv := by
  induction l generalizing p s with
  | nil => exact h.goto rfl hf
  | cons st r ih =>
    have hlegal := legal_of_todo hl hp
    have hsucc := ExecPos.succ_ok hl hp
    have hrest := todo_succ hl
    cases st with
    | bus rs hi src part =>
      refine (h.emits ?_).goto hsucc hf
      simpa [Event.legal] using Stmt.ctrl_mem_legalCtrls h.select rs hi
    | delay us =>
      refine (h.emits ?_).goto (wait_ok hl rfl hp) hf
      simpa [Event.legal, Stmt.legal] using hlegal
    | setEM bit v => exact ih (h.setEM (of_decide_eq_true hlegal) v) hf hsucc hrest
    | setDC bit v => exact ih (h.setDC (of_decide_eq_true hlegal) v) hf hsucc hrest
    | setSelect v => exact ih (h.setSelect hlegal) hf hsucc hrest
    | awaitPayload =>
      obtain ⟨hlen, hfits, -⟩ := ExecPos.ok_iff.1 hp
      have hwait : p.pay.waiting = true := hlegal
      exact h.goto (by simp [Fsm.ok, hlen, hfits, hwait]) hf

/-- Settles O50: the invariant, by the state the FSM is in. -/
theorem tickKeepsTheInvariant : Obligations.TickKeepsTheInvariant := by
  intro inp s h
  cases hr : inp.rst with
  | true => exact tick_rst inp s hr ▸ applyReset_inv inp.cfg h.trace
  | false =>
    have hok := h.fsm
    cases hs : s.fsm with
    | idle =>
      rw [tick_idle hr hs]
      split
      · exact acceptOpcode_inv h _ (h.fault_eq_false (by simp [hs]))
      · exact h
    | hdr op got =>
      rw [tick_hdr hr hs]
      rw [hs] at hok
      split
      · exact acceptHeader_inv h (of_decide_eq_true hok) _ (h.fault_eq_false (by simp [hs]))
      · exact h
    | exec p =>
      rw [tick_exec hr hs]
      rw [hs] at hok
      exact execStmts_inv h (h.fault_eq_false (by simp [hs])) hok rfl
    | payload op hdr pay =>
      rw [tick_payload hr hs]
      rw [hs] at hok
      split
      · exact acceptPayload_inv h hok _ (h.fault_eq_false (by simp [hs]))
      · exact h
    | wait us ret =>
      rw [tick_wait hr hs]
      rw [hs] at hok
      have hret : ret.ok s.busWidth = true := by
        simp only [Fsm.ok, Bool.and_eq_true] at hok
        exact hok.1.1
      split
      · exact h.goto hret (h.fault_eq_false (by simp [hs]))
      · exact h
    | fault => exact (tick_fault hr hs).symm ▸ h

/-- Settles O49: a step is the meaning of an operation or a step of the FSM. -/
theorem stepKeepsTheInvariant : Obligations.StepKeepsTheInvariant := by
  intro s t h hstep
  unfold step at hstep
  split at hstep
  · next i rest _ => exact exec_inv (h.offer rest) hstep
  · cases hstep
    obtain ⟨r, hr⟩ := takeAccepted_eq s
    rw [hostTick, hr]
    exact tickKeepsTheInvariant _ _ (h.offer r)

/-! ### Outside `EXEC` a step moves the FSM only (10_state.md R30) -/

/-- An accepted opcode byte moves the FSM, and sets the fault mark if it is illegal. -/
theorem acceptOpcode_eq (b : Byte) (s : State) :
    ∃ f flt, acceptOpcode b s = { s with fsm := f, fault := flt } := by
  unfold acceptOpcode
  split
  · exact ⟨_, _, rfl⟩
  · split <;> exact ⟨_, s.fault, rfl⟩

theorem acceptHeader_eq (op : Op) (got : List Byte) (b : Byte) (s : State) :
    ∃ f, acceptHeader op got b s = s.goto f := by
  unfold acceptHeader
  split <;> exact ⟨_, rfl⟩

/-- Without `rst` and outside `EXEC`, a step writes the FSM state and the fault mark only. -/
theorem tick_outside_exec {inp : PortIn} {s : State} (hr : inp.rst = false)
    (hne : ∀ p, s.fsm ≠ .exec p) : ∃ f flt, tick inp s = { s with fsm := f, fault := flt } := by
  have hself : ∃ f flt, s = { s with fsm := f, fault := flt } := ⟨s.fsm, s.fault, rfl⟩
  cases hs : s.fsm with
  | idle =>
    rw [tick_idle hr hs]
    split
    · exact acceptOpcode_eq _ s
    · exact hself
  | hdr op got =>
    rw [tick_hdr hr hs]
    split
    · obtain ⟨f, hf⟩ := acceptHeader_eq op got inp.opData s
      exact ⟨f, s.fault, hf⟩
    · exact hself
  | exec p => exact absurd hs (hne p)
  | payload op hdr pay =>
    rw [tick_payload hr hs]
    split
    · exact ⟨_, s.fault, rfl⟩
    · exact hself
  | wait us ret =>
    rw [tick_wait hr hs]
    split
    · exact ⟨_, s.fault, rfl⟩
    · exact hself
  | fault => exact (tick_fault hr hs).symm ▸ hself

/-- Settles O46: outside `EXEC` a step writes the FSM state and the fault mark only. -/
theorem registersChangeOnlyInExec : Obligations.RegistersChangeOnlyInExec := by
  intro inp s hr hne
  obtain ⟨f, flt, ht⟩ := tick_outside_exec hr hne
  simp [ht]

/-! ### What a step in `EXEC` emits -/

/-- The bus write that the statements show is the one they make. -/
theorem execStmts_of_busOf_eq_some {l : List Stmt} {p : ExecPos} {s : State} {c d : Byte}
    (h : busOf l s = some (c, d)) :
    (execStmts l p s).trace = s.trace ++ [.bus c d] ∧ ∃ q, (execStmts l p s).fsm = .exec q := by
  induction l generalizing p s with
  | nil => cases h
  | cons st r ih =>
    cases st with
    | bus rs hi src part => cases h; exact ⟨rfl, _, rfl⟩
    | delay | awaitPayload => cases h
    | setEM | setDC | setSelect => exact ih h

/-- Statements that show no bus write emit nothing, or one delay on the way into `WAIT`. -/
theorem execStmts_of_busOf_eq_none {l : List Stmt} {p : ExecPos} {s : State}
    (h : busOf l s = none) :
    (execStmts l p s).trace = s.trace ∨
      ∃ us ret, (execStmts l p s).trace = s.trace ++ [.delay us] ∧
        (execStmts l p s).fsm = .wait us ret := by
  induction l generalizing p s with
  | nil => exact .inl rfl
  | cons st r ih =>
    cases st with
    | bus => cases h
    | delay us => exact .inr ⟨us, p.succ, rfl, rfl⟩
    | awaitPayload => exact .inl rfl
    | setEM | setDC | setSelect => exact ih h

/-- Only `EXEC`, and only without `rst`, drives a bus write (10_state.md R30). -/
theorem outputs_bus_eq_some {inp : PortIn} {s : State} {w : Byte × Byte}
    (h : (outputs inp s).bus = some w) :
    inp.rst = false ∧ ∃ p, s.fsm = .exec p ∧ busOf (todo s.busWidth p) s = some w := by
  cases hs : s.fsm with
  | exec p =>
    cases hr : inp.rst <;> simp [outputs, hs, hr] at h
    exact ⟨rfl, p, rfl, h⟩
  | _ => simp [outputs, hs] at h

theorem outputs_bus_exec {inp : PortIn} {s : State} {p : ExecPos} (hr : inp.rst = false)
    (hs : s.fsm = .exec p) : (outputs inp s).bus = busOf (todo s.busWidth p) s := by
  simp [outputs, hr, hs]

/-- Settles O45: the statements of a step in `EXEC` emit what they show; no other step emits. -/
theorem tickEmitsWhatItsOutputsShow : Obligations.TickEmitsWhatItsOutputsShow := by
  intro inp s
  constructor
  · intro c d hbus
    obtain ⟨hr, p, hs, hw⟩ := outputs_bus_eq_some hbus
    rw [tick_exec hr hs]
    exact execStmts_of_busOf_eq_some hw
  · intro hbus
    cases hr : inp.rst with
    | true => exact .inl (by simp [tick_rst inp s hr])
    | false =>
      by_cases hexec : ∃ p, s.fsm = .exec p
      · obtain ⟨p, hs⟩ := hexec
        rw [outputs_bus_exec hr hs] at hbus
        rw [tick_exec hr hs]
        refine (execStmts_of_busOf_eq_none hbus).imp_right ?_
        rintro ⟨us, ret, htrace, hwait⟩
        exact ⟨us, ret, htrace, hwait, p, hs⟩
      · obtain ⟨_, _, ht⟩ := tick_outside_exec hr (not_exists.1 hexec)
        exact .inl (by rw [ht])

/-! ### Outputs and transitions, state by state -/

/-- Settles O44: the outputs are given by the FSM state. -/
theorem fsmOutputs : Obligations.FsmOutputs := by
  intro inp s
  refine ⟨by simp [outputs], by simp [outputs], fun hr => ⟨?_, ?_, ?_, ?_, ?_, ?_⟩⟩
  · intro hs
    simp [outputs, hr, hs]
  · intro op got hs
    simp [outputs, hr, hs]
  · intro p hs
    simp [outputs, hr, hs]
  · intro op hdr pay hs
    simp [outputs, hr, hs]
  · intro us ret hs
    simp [outputs, hr, hs]
  · intro hs
    simp [outputs, hs]

section Transition
variable {inp : PortIn} {s : State} (hr : inp.rst = false)
include hr

/-- Transition 1 (10_state.md R30). -/
theorem tick_idle_byte (hs : s.fsm = .idle) (hv : inp.opValid = true) :
    tick inp s = acceptOpcode inp.opData s := by
  rw [tick_idle hr hs, if_pos hv]

/-- Transition 2 (10_state.md R30). -/
theorem tick_hdr_byte {op : Op} {got : List Byte} (hs : s.fsm = .hdr op got)
    (hv : inp.opValid = true) : tick inp s = acceptHeader op got inp.opData s := by
  rw [tick_hdr hr hs, if_pos hv]

/-- Transition 4 (10_state.md R30). -/
theorem tick_payload_byte {op : Op} {hdr : List Byte} {pay : Payload}
    (hs : s.fsm = .payload op hdr pay) (hv : inp.opValid = true) :
    tick inp s = acceptPayload op hdr pay inp.opData s := by
  rw [tick_payload hr hs, if_pos hv]

/-- An assignment takes no step: the step is that of the state `u` with the assignment done and
the position behind it (10_state.md R30, transition 3). -/
theorem tick_exec_assignment {p : ExecPos} {st : Stmt} {r : List Stmt} {u : State}
    (hs : s.fsm = .exec p) (hl : todo s.busWidth p = st :: r)
    (hu : execStmts (st :: r) p s = execStmts r p.succ u) (hbw : u.busWidth = s.busWidth) :
    tick inp s = tick inp (u.goto (.exec p.succ)) := by
  rw [tick_exec hr hs, hl, hu, tick_exec hr (State.goto_fsm u _), execStmts_goto,
    State.goto_busWidth, hbw, todo_succ hl]

end Transition

theorem acceptOpcode_toByte {op : Op} {b : Byte} {s : State} (h : Op.ofByte b = some op) :
    acceptOpcode b s = if op.headerLen = 0 then enterExec op [] s else s.goto (.hdr op []) := by
  simp [acceptOpcode, h]

theorem acceptOpcode_illegal {b : Byte} {s : State} (h : Op.ofByte b = none) :
    acceptOpcode b s = raiseIllegalOp s := by
  simp [acceptOpcode, h]

/-- The control byte of a bus statement, with RS and the strobes as separate bits. -/
theorem Stmt.ctrl_eq (s : State) (rs hi : Bool) :
    Stmt.ctrl s rs hi =
      (if rs then 0x01 else 0x00) ||| (if hi then s.enableSelect else 0x00) := by
  cases rs <;> cases hi <;> simp [Stmt.ctrl, ctrlByte]

/-- Settles O43, transition by transition. -/
theorem fsmTransitions : Obligations.FsmTransitions := by
  intro inp s
  refine ⟨?_, ?_, ?_, ?_, fun us ret hr hs => tick_wait hr hs, fun hr hs => tick_fault hr hs,
    fun hr => tick_rst inp s hr⟩
  · intro hr hs hv
    rw [tick_idle_byte hr hs hv]
    refine ⟨fun op hop hlen => ?_, fun op hop hlen => ?_, acceptOpcode_illegal⟩
    · rw [acceptOpcode_toByte hop, if_neg hlen.ne']
      rfl
    · rw [acceptOpcode_toByte hop, if_pos hlen]
      rfl
  · intro op got hr hs hv
    rw [tick_hdr_byte hr hs hv]
    exact ⟨fun hlen => if_neg hlen, fun hlen => if_pos hlen⟩
  · intro p hr hs
    refine ⟨fun hl => ?_, fun rs hi src part r hl => ?_, fun us r hl => ?_, fun bit v r hl => ?_,
      fun bit v r hl => ?_, fun v r hl => ?_, fun r hl => ?_⟩
    · rw [tick_exec hr hs, hl]
      rfl
    · rw [tick_exec hr hs, hl, ← Stmt.ctrl_eq]
      rfl
    · rw [tick_exec hr hs, hl]
      rfl
    · exact tick_exec_assignment hr hs hl (u := s.setEM bit v) rfl rfl
    · exact tick_exec_assignment hr hs hl (u := s.setDC bit v) rfl rfl
    · exact tick_exec_assignment hr hs hl (u := s.setSelect v) rfl rfl
    · rw [tick_exec hr hs, hl]
      rfl
  · intro op hdr pay hr hs hv
    exact tick_payload_byte hr hs hv

/-! ### Reset values -/

/-- Settles O38: each value is the one reset loads (10_state.md R33). -/
theorem resetStateValues : Obligations.ResetStateValues :=
  ⟨rfl, rfl, rfl, rfl, rfl, rfl, rfl, rfl, rfl⟩

/-- Settles O39: one value for each configuration (10_state.md R24). -/
theorem functionSetOfEachConfiguration : Obligations.FunctionSetOfEachConfiguration := by
  unfold Obligations.FunctionSetOfEachConfiguration
  decide

end Sys2Proof.Machine

/-! Proofs for the family `20_memory.md`: the command byte of `SET_CURSOR` from the constant line
table, and what a step does with the offered bytes and the trace. -/

namespace Sys2Proof.Machine

/-! ### The command byte of `SET_CURSOR` (20_memory.md R55) -/

/-- In range, `SET_CURSOR` appends the events of its command byte (44_cursor_glyph.md R191). -/
theorem exec_setCursor_of_inRange {line col : Byte} (s : State) (hline : line.toNat < 2)
    (hcol : col.toNat < 40) :
    exec (.setCursor line col) s = .next (s.emits
      (sendEvents s.busWidth s.enableSelect (s.cursorCommand line col) false)) := by
  simp [exec, execSetCursor, cursorInRange, hline, hcol, send_eq]

/-- The command byte under the constant line table (10_state.md R27). -/
theorem State.cursorCommand_of_lineBase {s : State} (h : s.lineBase = #v[0x80, 0xC0])
    (line col : Byte) :
    s.cursorCommand line col = (if line.toNat = 0 then 0x80 else 0xC0) + col := by
  simp [State.cursorCommand, State.lineBaseOf, h]

/-- A column added to a line base does not carry out of the byte. -/
theorem toNat_base_add_col {base col : Byte} (hbase : base.toNat ≤ 0xC0) (hcol : col.toNat < 40) :
    (base + col).toNat = base.toNat + col.toNat :=
  BitVec.toNat_add_of_lt (by omega)

/-- Settles O22: the sum of line base and column is that of the numbers, and so stays in range. -/
theorem cursorCommandNeverCarries : Obligations.CursorCommandNeverCarries := by
  intro line col s hbase hline hcol
  refine ⟨?_, fun _ => ?_, fun _ => ?_⟩
  · rw [exec_setCursor_of_inRange s hline hcol, State.cursorCommand_of_lineBase hbase]
    rfl
  · have hsum : ((0x80 : Byte) + col).toNat = 0x80 + col.toNat :=
      toNat_base_add_col (by decide) hcol
    omega
  · have hsum : ((0xC0 : Byte) + col).toNat = 0xC0 + col.toNat :=
      toNat_base_add_col (by decide) hcol
    omega

/-! ### The offered bytes and the trace over a step (20_memory.md R57, R60, R61) -/

/-- The meaning of an operation takes no byte, and only appends events. -/
theorem exec_stream_trace {i : Instr} {s t : State} (h : exec i s = .next t) :
    t.opStream = s.opStream ∧ ∃ evs, t.trace = s.trace ++ evs := by
  obtain ⟨-, -, -, -, -, hstream, -, -, -, -, htrace, -⟩ := accessMatrixFrame i s t h
  exact ⟨hstream, htrace⟩

/-- An accepted byte is the front of the offered stream (30_encoding.md R71). -/
theorem takeAccepted_takes_front (s : State) :
    ∃ taken r, s.opStream = taken ++ r ∧ takeAccepted s = s.offer r := by
  unfold takeAccepted
  split
  · exact ⟨s.opStream.take 1, s.opStream.tail, by simp [← List.drop_one], rfl⟩
  · exact ⟨[], s.opStream, rfl, rfl⟩

/-- A step is the meaning of the operation on offer, or a transition of the FSM where none is. -/
theorem step_cases {s t : State} (h : step s = .next t) :
    (∃ i rest, s.rst = none ∧ s.fsm = .idle ∧ decode s.opStream = .op i rest ∧
      exec i (s.offer rest) = .next t) ∨
    (nextOperation s = none ∧ t = hostTick s) := by
  unfold step at h
  split at h
  · next i rest hnext =>
    obtain ⟨hr, hf, hd⟩ := nextOperation_eq_some.1 hnext
    exact .inl ⟨i, rest, hr, hf, hd, h⟩
  · next hnone =>
    cases h
    exact .inr ⟨hnone, rfl⟩

/-- Settles O33: a step takes the words of an operation, or at most the one byte the FSM accepts;
neither the meaning nor the transition takes another byte or drops an event. -/
theorem stepConsumesInOrderAndAppendsEvents :
    Obligations.StepConsumesInOrderAndAppendsEvents := by
  intro s t hstep
  obtain ⟨i, rest, -, -, hd, hexec⟩ | ⟨-, rfl⟩ := step_cases hstep
  · obtain ⟨-, hwords⟩ := encode_of_decode hd
    obtain ⟨hstream, htrace⟩ := exec_stream_trace hexec
    exact ⟨⟨encode i, by rw [hstream, hwords, State.offer_opStream]⟩, htrace⟩
  · obtain ⟨taken, r, hfront, htake⟩ := takeAccepted_takes_front s
    obtain ⟨hstream, htrace⟩ := tick_stream_trace (hostPorts s) (s.offer r)
    rw [hostTick, htake]
    exact ⟨⟨taken, by rw [hstream, hfront, State.offer_opStream]⟩, htrace⟩

end Sys2Proof.Machine

/-! Proofs for the family `30_encoding.md`: the decoder reads back what the encoder writes, the
opcode map, the stream handshake and its stalls, the legal events, and the assembler. -/

namespace Sys2Proof

/-! ### The decoder on the words of an operation (30_encoding.md R72, R76) -/

/-- `WRITE_N` takes a text of the counted length. -/
theorem decodeWriteN_of_count {lo hi : Byte} {text : List Byte} (rest : List Byte)
    (h : (textCount lo hi).toNat = text.length) :
    decodeWriteN (lo :: hi :: (text ++ rest)) = .op (.writeN text) rest := by
  simp [decodeWriteN, h]

/-- `WRITE_UNTIL` takes a text up to its terminator. -/
theorem decodeWriteUntil_of_notMem {term : Byte} {text : List Byte} (rest : List Byte)
    (h : term ∉ text) :
    decodeWriteUntil (term :: (text ++ term :: rest)) = .op (.writeUntil term text) rest := by
  simp [decodeWriteUntil, takeUntil_append rest h]

/-- The operand bytes of a well-formed operation spell it, whatever follows. -/
theorem decodeOperands_operandBytes {i : Instr} (hwf : i.WellFormed) (rest : List Byte) :
    decodeOperands i.op (i.operandBytes ++ rest) = .op i rest := by
  cases i with
  | writeN text =>
    exact decodeWriteN_of_count rest (textCount_countBytes (of_decide_eq_true hwf))
  | writeUntil term text =>
    have h := decodeWriteUntil_of_notMem rest (of_decide_eq_true hwf : term ∉ text)
    simpa [decodeOperands, Instr.op, Instr.operandBytes] using h
  | _ => rfl

/-- Settles O1: the opcode byte names the format, and each format reads its operands back. -/
theorem decodeReadsBackEveryEncoding : Obligations.DecodeReadsBackEveryEncoding := by
  intro i rest hwf
  rw [encode, List.cons_append, decode_toByte, decodeOperands_operandBytes hwf]

/-- Settles O2, by the inversion of each operand reader. -/
theorem decodedBytesAreItsEncoding : Obligations.DecodedBytesAreItsEncoding :=
  fun _ _ _ h => encode_of_decode h

/-- An illegal opcode is rejected by name (30_encoding.md R80). -/
theorem decode_illegal {b : Byte} (r : List Byte) (h : b.toNat = 0 ∨ 24 ≤ b.toNat) :
    decode (b :: r) = .illegal b r := by
  simp [decode, Op.ofByte_eq_none.2 h]

/-- Settles O3: the fixed formats by the words of their operations, the two texts by their
readers, and the other bytes by the opcode map. -/
theorem opcodeMapAndFormats : Obligations.OpcodeMapAndFormats := by
  refine ⟨fun r => ?_, fun line col r => ?_, fun slot p0 p1 p2 p3 p4 p5 p6 p7 r => ?_,
    fun n r => ?_, fun lo hi text r hlen => ?_, fun term text r hm => ?_,
    fun b r hb => decode_illegal r hb⟩
  · have hword (i : Instr) (hwf : i.WellFormed) : decode (encode i ++ r) = .op i r :=
      decodeReadsBackEveryEncoding i r hwf
    exact ⟨hword .begin rfl, hword .clear rfl, hword .home rfl, hword .cursorLeft rfl,
      hword .cursorRight rfl, hword .displayLeft rfl, hword .displayRight rfl,
      hword .autoscrollOn rfl, hword .autoscrollOff rfl, hword .entryInc rfl,
      hword .entryDec rfl, hword .blinkOn rfl, hword .blinkOff rfl, hword .cursorOn rfl,
      hword .cursorOff rfl, hword .displayOn rfl, hword .displayOff rfl, hword .echo rfl⟩
  · exact decodeReadsBackEveryEncoding (.setCursor line col) r rfl
  · exact decodeReadsBackEveryEncoding (.createChar slot p0 p1 p2 p3 p4 p5 p6 p7) r rfl
  · exact decodeReadsBackEveryEncoding (.selectLcd n) r rfl
  · exact (decode_toByte .writeN _).trans
      (decodeWriteN_of_count r ((textCount_toNat lo hi).trans hlen.symm))
  · exact (decode_toByte .writeUntil _).trans (decodeWriteUntil_of_notMem r hm)

/-- Settles O4, by evaluation. -/
theorem sampleWordsDecode : Obligations.SampleWordsDecode := by
  unfold Obligations.SampleWordsDecode
  decide

end Sys2Proof

namespace Sys2Proof.Machine

/-! ### The stream handshake (30_encoding.md R71) -/

/-- The FSM waits for a byte. -/
def Fsm.takesByte (f : Fsm) : Prop :=
  f = .idle ∨ (∃ op got, f = .hdr op got) ∨ ∃ op hdr pay, f = .payload op hdr pay

/-- `op_ready` is up where the FSM waits for a byte and `rst` is low. -/
theorem outputs_opReady {inp : PortIn} {s : State} :
    (outputs inp s).opReady = true ↔ inp.rst = false ∧ s.fsm.takesByte := by
  cases hs : s.fsm <;> simp [outputs, hs, Fsm.takesByte]

theorem accepts_iff {inp : PortIn} {s : State} :
    accepts inp s = true ↔ inp.rst = false ∧ s.fsm.takesByte ∧ inp.opValid = true := by
  rw [accepts, Bool.and_eq_true, outputs_opReady, and_assoc]

/-- Where the FSM waits for a byte and none is valid, it holds. -/
theorem tick_stalled {inp : PortIn} {s : State} (hr : inp.rst = false) (hs : s.fsm.takesByte)
    (hv : inp.opValid = false) : tick inp s = s := by
  obtain h | ⟨op, got, h⟩ | ⟨op, hdr, pay, h⟩ := hs
  · simp [tick_idle hr h, hv]
  · simp [tick_hdr hr h, hv]
  · simp [tick_payload hr h, hv]

/-- No operation is on offer where no byte is. -/
theorem nextOperation_of_nil {s : State} (h : s.opStream = []) : nextOperation s = none := by
  rw [Option.eq_none_iff_forall_not_mem]
  rintro ⟨i, rest⟩ hnext
  obtain ⟨-, -, hd⟩ := nextOperation_eq_some.1 hnext
  simp [h, decode] at hd

/-- Settles O41, by the FSM state: the three that wait for a byte, and `WAIT`. -/
theorem handshakeHoldsWithoutAByte : Obligations.HandshakeHoldsWithoutAByte := by
  refine ⟨fun inp s => outputs_opReady, fun inp s hready hv => ?_,
    fun inp s us ret hr hs hd => ⟨?_, ?_⟩, fun s hr hs hready => ?_⟩
  · obtain ⟨hr, hf⟩ := outputs_opReady.1 hready
    exact tick_stalled hr hf hv
  · simp [tick_wait hr hs, hd]
  · simp [outputs, hr, hs]
  · obtain ⟨-, hf⟩ := outputs_opReady.1 hready
    rw [step, nextOperation_of_nil hs, hostTick_stalled hr hs hf]

/-! ### A transition does not read the bytes on offer -/

theorem acceptOpcode_offer (b : Byte) (s : State) (r : List Byte) :
    acceptOpcode b (s.offer r) = (acceptOpcode b s).offer r := by
  unfold acceptOpcode
  split
  · rfl
  · split <;> rfl

theorem acceptHeader_offer (op : Op) (got : List Byte) (b : Byte) (s : State) (r : List Byte) :
    acceptHeader op got b (s.offer r) = (acceptHeader op got b s).offer r := by
  unfold acceptHeader
  split <;> rfl

theorem eval_offer (s : State) (r : List Byte) (src : DataSrc) :
    src.eval (s.offer r) = src.eval s := by
  cases src <;> rfl

theorem execStmts_offer (l : List Stmt) (p : ExecPos) (s : State) (r : List Byte) :
    execStmts l p (s.offer r) = (execStmts l p s).offer r := by
  induction l generalizing p s with
  | nil => rfl
  | cons st l ih =>
    cases st with
    | bus rs hi src part => rw [execStmts, eval_offer]; rfl
    | delay us => rfl
    | setEM bit v => exact ih p.succ (s.setEM bit v)
    | setDC bit v => exact ih p.succ (s.setDC bit v)
    | setSelect v => exact ih p.succ (s.setSelect v)
    | awaitPayload => rfl

/-! ### Timing of the inputs (30_encoding.md R71, 20_memory.md R61) -/

section Timing
variable {inp : PortIn} {s : State} (hs : s.rst = none) (hr : inp.rst = false)
include hs hr

/-- A step that accepts a byte is the host's step with this byte in front of the stream. -/
theorem hostTick_of_accepts (ha : accepts inp s = true) (r : List Byte) :
    hostTick (s.offer (inp.opData :: r)) = (tick inp s).offer r := by
  obtain ⟨-, h | ⟨op, got, h⟩ | ⟨op, hdr, pay, h⟩, hv⟩ := accepts_iff.1 ha
  · rw [hostTick_idle (s := s.offer (inp.opData :: r)) hs h rfl, tick_idle_byte hr h hv]
    exact acceptOpcode_offer inp.opData s r
  · rw [hostTick_hdr (s := s.offer (inp.opData :: r)) hs h rfl, tick_hdr_byte hr h hv]
    exact acceptHeader_offer op got inp.opData s r
  · rw [hostTick_payload (s := s.offer (inp.opData :: r)) hs h rfl, tick_payload_byte hr h hv]
    rfl

/-- A step that accepts no byte holds, or is the host's step whatever is on offer. -/
theorem tick_of_not_accepts (ha : accepts inp s = false) :
    tick inp s = s ∨ ∀ r, hostTick (s.offer r) = (tick inp s).offer r := by
  by_cases hf : s.fsm.takesByte
  · have hv : inp.opValid = false := by
      by_contra hv
      simp [accepts_iff.2 ⟨hr, hf, by simpa using hv⟩] at ha
    exact .inl (tick_stalled hr hf hv)
  · cases h : s.fsm with
    | idle | hdr | payload => simp [h, Fsm.takesByte] at hf
    | exec p =>
      refine .inr fun r => ?_
      rw [hostTick_exec (s := s.offer r) hs h, tick_exec hr h]
      exact execStmts_offer _ p s r
    | wait us ret =>
      cases hd : inp.dlyDone with
      | false => exact .inl (by simp [tick_wait hr h, hd])
      | true =>
        refine .inr fun r => ?_
        rw [hostTick_wait (s := s.offer r) hs h, tick_wait hr h, hd]
        rfl
    | fault => exact .inl (tick_fault hr h)

end Timing

/-- Settles O48, by induction over the inputs: each step is a step of the host's run with the
accepted bytes on offer, or a stall, which that run leaves out. -/
theorem timingOfInputsDoesNotMatter : Obligations.TimingOfInputsDoesNotMatter := by
  intro inps s hs hrst
  induction inps generalizing s with
  | nil => exact ⟨0, le_rfl, rfl⟩
  | cons inp inps ih =>
    obtain ⟨hr, hrest⟩ := List.forall_mem_cons.1 hrst
    obtain ⟨-, -, -, hkeep⟩ := tick_config inp s hr
    obtain ⟨n, hle, hn⟩ := ih (tick inp s) (hkeep.trans hs) hrest
    have hlonger : (inp :: inps).length = inps.length + 1 := List.length_cons
    cases ha : accepts inp s with
    | true =>
      refine ⟨n + 1, by omega, ?_⟩
      rw [acceptedBytes, if_pos ha, tickRun, ← hn]
      exact congrArg (hostTicks n) (hostTick_of_accepts hs hr ha _)
    | false =>
      have hskip : acceptedBytes (inp :: inps) s = acceptedBytes inps (tick inp s) := by
        simp [acceptedBytes, ha]
      rw [hskip, tickRun]
      obtain hhold | hmove := tick_of_not_accepts hs hr ha
      · rw [hhold] at hn ⊢
        exact ⟨n, by omega, hn⟩
      · refine ⟨n + 1, by omega, ?_⟩
        rw [← hn]
        exact congrArg (hostTicks n) (hmove _)

/-! ### Data bytes on the 4-bit bus (30_encoding.md R85) -/

theorem highNibble_and (d : Byte) : highNibble d &&& 0x0F = 0 := by
  simp [highNibble, BitVec.and_assoc]

theorem lowNibble_and (d : Byte) : lowNibble d &&& 0x0F = 0 := by
  apply BitVec.eq_of_getLsbD_eq
  intro k hk
  interval_cases k <;> simp [lowNibble]

/-- A data byte with its low half zero is one for both buses. -/
theorem fits_bus (bw : BusWidth) (c : Byte) {d : Byte} (h : d &&& 0x0F = 0) :
    (Event.bus c d).fits bw = true := by
  cases bw with
  | bw8 => rfl
  | bw4 => exact decide_eq_true h

theorem strobeEvents_fit (bw : BusWidth) (sel : Byte) (rs : Bool) {d : Byte}
    (h : d &&& 0x0F = 0) : ∀ e ∈ strobeEvents sel rs d, e.fits bw = true := by
  simp [strobeEvents, fits_bus bw _ h]

theorem sendEvents_fit (bw : BusWidth) (sel d : Byte) (rs : Bool) :
    ∀ e ∈ sendEvents bw sel d rs, e.fits bw = true := by
  cases bw with
  | bw8 => simp [sendEvents, strobeEvents, Event.fits]
  | bw4 =>
    simp only [sendEvents, List.forall_mem_append, List.forall_mem_singleton]
    exact ⟨⟨⟨strobeEvents_fit _ sel rs (highNibble_and d), rfl⟩,
      strobeEvents_fit _ sel rs (lowNibble_and d)⟩, rfl⟩

theorem textEvents_fit (bw : BusWidth) (sel : Byte) (text : List Byte) :
    ∀ e ∈ textEvents bw sel text, e.fits bw = true :=
  List.forall_mem_flatMap.2 fun b _ => sendEvents_fit bw sel b true

/-- From `s` to `t` the bus width stays, and the trace grows by data bytes that fit it. -/
def EmitsFitting (s t : State) : Prop :=
  t.busWidth = s.busWidth ∧ ∃ evs, t.trace = s.trace ++ evs ∧ ∀ e ∈ evs, e.fits s.busWidth = true

/-- A step that emits nothing. -/
theorem EmitsFitting.of_trace_eq {s t : State} (hbw : t.busWidth = s.busWidth)
    (ht : t.trace = s.trace) : EmitsFitting s t :=
  ⟨hbw, [], by simp [ht], by simp⟩

theorem EmitsFitting.refl (s : State) : EmitsFitting s s := .of_trace_eq rfl rfl

theorem EmitsFitting.trans {s t u : State} (h₁ : EmitsFitting s t) (h₂ : EmitsFitting t u) :
    EmitsFitting s u := by
  obtain ⟨hbw, a, ha, hfa⟩ := h₁
  obtain ⟨hbw', b, hb, hfb⟩ := h₂
  exact ⟨hbw'.trans hbw, a ++ b, by simp [ha, hb],
    List.forall_mem_append.2 ⟨hfa, hbw ▸ hfb⟩⟩

theorem emitsFitting_emits {s : State} {evs : List Event}
    (h : ∀ e ∈ evs, e.fits s.busWidth = true) : EmitsFitting s (s.emits evs) :=
  ⟨rfl, evs, rfl, h⟩

theorem emitsFitting_delay (us : Micros) (s : State) : EmitsFitting s (emitDelay us s) :=
  emitsFitting_emits (by simp [Event.fits])

theorem emitsFitting_send (d : Byte) (rs : Bool) (s : State) : EmitsFitting s (send d rs s) :=
  send_eq d rs s ▸ emitsFitting_emits (sendEvents_fit _ _ d rs)

theorem emitsFitting_longCmd (c : Byte) (s : State) : EmitsFitting s (longCmd c s) :=
  (emitsFitting_send c false s).trans (emitsFitting_delay usLong _)

theorem emitsFitting_sendText (text : List Byte) (s : State) :
    EmitsFitting s (sendText text s) :=
  sendText_eq text s ▸ emitsFitting_emits (textEvents_fit _ _ text)

theorem emitsFitting_sendUntil (term : Byte) (text : List Byte) (s : State) :
    EmitsFitting s (sendUntil term text s) :=
  sendUntil_eq term text s ▸ emitsFitting_emits (textEvents_fit _ _ _)

theorem emitsFitting_setFlagEM (bit : Nat) (v : Bool) (s : State) :
    EmitsFitting s (setFlagEM bit v s) :=
  (EmitsFitting.of_trace_eq rfl rfl).trans (emitsFitting_send _ false (s.setEM bit v))

theorem emitsFitting_setFlagDC (bit : Nat) (v : Bool) (s : State) :
    EmitsFitting s (setFlagDC bit v s) :=
  (EmitsFitting.of_trace_eq rfl rfl).trans (emitsFitting_send _ false (s.setDC bit v))

/-- The raw strobe of `BEGIN` carries its byte whole, on both buses (41_init.md R122). -/
theorem emitsFitting_initStep {d : Byte} (hd : d &&& 0x0F = 0) (us : Micros) (s : State) :
    EmitsFitting s (emitDelay us (initStrobe d s)) :=
  (initStrobe_eq d s ▸ emitsFitting_emits (strobeEvents_fit _ _ false hd)).trans
    (emitsFitting_delay us _)

theorem emitsFitting_initModeSelect (s : State) : EmitsFitting s (initModeSelect s) :=
  ((emitsFitting_initStep (by decide) _ s).trans (emitsFitting_initStep (by decide) _ _)).trans
    (emitsFitting_initStep (by decide) _ _)

theorem emitsFitting_initNarrow (s : State) : EmitsFitting s (initNarrow s) := by
  unfold initNarrow
  split
  · exact .refl s
  · exact emitsFitting_initStep (by decide) _ s

theorem emitsFitting_begin {s t : State} (h : execBegin s = .next t) : EmitsFitting s t := by
  cases h
  exact ((((((((emitsFitting_delay _ s).trans (emitsFitting_initModeSelect _)).trans
    (emitsFitting_initNarrow _)).trans (emitsFitting_send _ _ _)).trans
    (emitsFitting_longCmd _ _)).trans (emitsFitting_longCmd _ _)).trans
    (emitsFitting_send _ _ _)).trans (emitsFitting_send _ _ _)).trans (.of_trace_eq rfl rfl)

/-- The meaning of an operation emits data bytes that fit the bus. -/
theorem exec_emitsFitting {i : Instr} {s t : State} (h : exec i s = .next t) :
    EmitsFitting s t := by
  cases i with
  | begin => exact emitsFitting_begin h
  | clear | home => cases h; exact emitsFitting_longCmd _ s
  | cursorLeft | cursorRight | displayLeft | displayRight =>
    cases h
    exact emitsFitting_send _ false s
  | autoscrollOn | autoscrollOff | entryInc | entryDec =>
    cases h
    exact emitsFitting_setFlagEM _ _ s
  | blinkOn | blinkOff | cursorOn | cursorOff | displayOn | displayOff =>
    cases h
    exact emitsFitting_setFlagDC _ _ s
  | setCursor line col =>
    simp only [exec, execSetCursor] at h
    split at h <;> cases h
    · exact emitsFitting_send _ false s
    · exact .refl s
  | createChar slot p0 p1 p2 p3 p4 p5 p6 p7 =>
    cases h
    exact (emitsFitting_send _ false s).trans (emitsFitting_sendText _ _)
  | selectLcd n =>
    simp only [exec, execSelectLcd] at h
    split at h <;> cases h
    · exact .of_trace_eq rfl rfl
    · exact .refl s
  | echo => cases h; exact .of_trace_eq rfl rfl
  | writeN text => cases h; exact emitsFitting_sendText text s
  | writeUntil term text => cases h; exact emitsFitting_sendUntil term _ s

/-! ### The events an operation emits -/

/-- Under a legal selector, the meaning of an operation emits legal events. -/
theorem exec_emits_legal {i : Instr} {s t : State} (h : exec i s = .next t) :
    ∃ evs, t.trace = s.trace ++ evs ∧
      (selectLegal s.enableSelect = true → ∀ e ∈ evs, e.legal = true) := by
  cases exec_effect h with
  | entryMode _ _ v =>
    obtain ⟨evs, ht, hlegal⟩ := emitsLegally_send (s.setEM _ v).emCmd false (s.setEM _ v)
    exact ⟨evs, congrArg State.trace ht, hlegal⟩
  | displayControl _ _ v =>
    obtain ⟨evs, ht, hlegal⟩ := emitsLegally_send (s.setDC _ v).dcCmd false (s.setDC _ v)
    exact ⟨evs, congrArg State.trace ht, hlegal⟩
  | begin _ hu =>
    obtain ⟨evs, rfl, hlegal⟩ := hu
    exact ⟨evs, rfl, hlegal⟩
  | select | nothing => exact ⟨[], by simp, by simp⟩
  | events _ ht =>
    obtain ⟨evs, rfl, hlegal⟩ := ht
    exact ⟨evs, rfl, hlegal⟩

/-- Settles O29: the appended events are legal by the operation's effect, and they fit the bus. -/
theorem operationsEmitOnlyLegalEvents : Obligations.OperationsEmitOnlyLegalEvents := by
  intro i s t h
  obtain ⟨evs, ht, hlegal⟩ := exec_emits_legal h
  obtain ⟨-, evs', ht', hfit⟩ := exec_emitsFitting h
  obtain rfl : evs = evs' := List.append_cancel_left (ht.symm.trans ht')
  exact ⟨evs, ht, hlegal, hfit⟩

/-! ### The assembler (30_encoding.md R87 to R90) -/

/-- A text that holds the terminator is an error (R87, R90). -/
theorem asmUntil_of_mem {term : Byte} {o : Operand} {os : List Operand}
    (h : term ∈ itemBytes (o :: os)) : asmUntil term (o :: os) = .error .terminatorInText :=
  if_pos h

/-- A text of one or more items that does not hold the terminator is accepted (R87). -/
theorem asmUntil_of_notMem {term : Byte} {o : Operand} {os : List Operand}
    (h : term ∉ itemBytes (o :: os)) :
    asmUntil term (o :: os) = .ok (.writeUntil term (itemBytes (o :: os))) :=
  if_neg h

theorem asmUntil_wellFormed {term : Byte} {os : List Operand} {i : Instr}
    (h : asmUntil term os = .ok i) : i.WellFormed := by
  cases os with
  | nil => cases h
  | cons o os =>
    by_cases hm : term ∈ itemBytes (o :: os)
    · cases (asmUntil_of_mem hm).symm.trans h
    · cases (asmUntil_of_notMem hm).symm.trans h
      exact decide_eq_true hm

theorem asmWriteUntil_wellFormed {os : List Operand} {i : Instr}
    (h : asmWriteUntil os = .ok i) : i.WellFormed := by
  unfold asmWriteUntil at h
  split at h
  · cases h
  · split at h
    · exact asmUntil_wellFormed h
    · cases h

theorem asmWriteN_wellFormed {os : List Operand} {i : Instr} (h : asmWriteN os = .ok i) :
    i.WellFormed := by
  unfold asmWriteN at h
  split at h
  · next hlen =>
    cases h
    exact decide_eq_true hlen
  · cases h

theorem noOperand_eq_ok {i j : Instr} {os : List Operand} (h : noOperand i os = .ok j) :
    j = i := by
  cases os <;> cases h
  rfl

theorem asmSetCursor_wellFormed {os : List Operand} {i : Instr} (h : asmSetCursor os = .ok i) :
    i.WellFormed := by
  unfold asmSetCursor at h
  split at h <;> cases h
  rfl

theorem asmCreateChar_wellFormed {os : List Operand} {i : Instr}
    (h : asmCreateChar os = .ok i) : i.WellFormed := by
  unfold asmCreateChar at h
  split at h <;> cases h
  rfl

theorem asmSelectLcd_wellFormed {os : List Operand} {i : Instr} (h : asmSelectLcd os = .ok i) :
    i.WellFormed := by
  unfold asmSelectLcd at h
  split at h <;> cases h
  rfl

theorem assembleOp_wellFormed {op : Op} {os : List Operand} {i : Instr}
    (h : assembleOp op os = .ok i) : i.WellFormed := by
  cases op with
  | setCursor => exact asmSetCursor_wellFormed h
  | createChar => exact asmCreateChar_wellFormed h
  | selectLcd => exact asmSelectLcd_wellFormed h
  | writeN => exact asmWriteN_wellFormed h
  | writeUntil => exact asmWriteUntil_wellFormed h
  | _ => cases noOperand_eq_ok h; rfl

theorem assembleMnemonic_wellFormed {m : Mnemonic} {os : List Operand} {i : Instr}
    (h : assembleMnemonic m os = .ok i) : i.WellFormed := by
  cases m with
  | op o => exact assembleOp_wellFormed h
  | print => exact asmUntil_wellFormed h

/-- A line without its label that spells an operation is a mnemonic with its operands (R86). -/
theorem assembleBody_eq_some {toks : List Token} {i : Instr}
    (h : assembleBody toks = .ok (some i)) : ∃ m os, assembleMnemonic m os = .ok i := by
  unfold assembleBody at h
  split at h
  · cases h
  · split at h
    · cases h
    · next m os _ _ =>
      cases hm : assembleMnemonic m os with
      | error e => simp [hm, Except.map] at h
      | ok j =>
        obtain rfl : j = i := by simpa [hm, Except.map] using h
        exact ⟨m, os, hm⟩
    · cases h
  · cases h

/-- A label is a comment for the reader (R86). -/
theorem assembleTokens_eq_body (toks : List Token) :
    ∃ body, assembleTokens toks = assembleBody body := by
  unfold assembleTokens
  split <;> exact ⟨_, rfl⟩

/-- A line that spells an operation is a mnemonic with its operands (R86). -/
theorem assembleLine_eq_some {line : String} {i : Instr}
    (h : assembleLine line = .ok (some i)) : ∃ m os, assembleMnemonic m os = .ok i := by
  unfold assembleLine at h
  split at h
  · next toks _ =>
    obtain ⟨body, hbody⟩ := assembleTokens_eq_body toks
    exact assembleBody_eq_some (hbody.symm.trans h)
  · cases h

/-- Settles O52: a line is a mnemonic with its operands, and the two texts are checked. -/
theorem assembledOperationsAreWellFormed : Obligations.AssembledOperationsAreWellFormed := by
  refine ⟨fun line i h => ?_, by decide⟩
  obtain ⟨m, os, hm⟩ := assembleLine_eq_some h
  exact assembleMnemonic_wellFormed hm

/-- Settles O53: `PRINT` is the text of `WRITE_UNTIL` with the terminator 0x00. -/
theorem printIsWriteUntilZero : Obligations.PrintIsWriteUntilZero := by
  intro o os
  exact ⟨rfl, fun hm => ⟨_, asmUntil_of_notMem hm, rfl⟩, fun hm => asmUntil_of_mem hm⟩

end Sys2Proof.Machine

/-! Proofs for the family `40_transaction.md`: the events of `Strobe`, `Send` and `LongCmd`, their
counts and delays, and what the chips latch over them. -/

namespace Sys2Proof.Machine

/-! ### Event lists written out (40_transaction.md R101, R104, R111) -/

/-- RS is the only bit of a control byte with the strobes low. -/
theorem ctrlByte_eq_ite (rs : Bool) : ctrlByte rs = if rs then 0x01 else 0x00 := by
  cases rs <;> rfl

/-- On an 8-bit bus `Send` is one strobe of the byte and the settle delay. -/
theorem send_bw8 {s : State} (h : s.busWidth = .bw8) (d : Byte) (rs : Bool) :
    send d rs s = s.emits (strobeEvents s.enableSelect rs d ++ [.delay (usSettle rs)]) := by
  rw [send_eq, h, sendEvents]

/-- On a 4-bit bus `Send` is a strobe of each nibble, high first, a delay after each. -/
theorem send_bw4 {s : State} (h : s.busWidth = .bw4) (d : Byte) (rs : Bool) :
    send d rs s = s.emits
      (strobeEvents s.enableSelect rs (highNibble d) ++ [.delay usNibble] ++
        strobeEvents s.enableSelect rs (lowNibble d) ++ [.delay (usSettle rs)]) := by
  rw [send_eq, h, sendEvents]

/-- Settles O5: the three events of a strobe, with its control byte written out. -/
theorem strobeIsThreeBusWrites : Obligations.StrobeIsThreeBusWrites := by
  intro rs d s c0
  rw [strobe_eq, strobeEvents, ctrlByte_eq_ite]
  rfl

/-- Settles O6: `Send` appends `sendEvents`, whose strobes are three bus writes each. -/
theorem sendEmitsItsTransactionsAndSettle : Obligations.SendEmitsItsTransactionsAndSettle := by
  intro d rs s c e settle hi lo
  refine ⟨fun h8 => ?_, fun h4 => ?_, send_eq d rs s⟩
  · rw [send_bw8 h8, strobeEvents, ctrlByte_eq_ite]
    rfl
  · rw [send_bw4 h4, strobeEvents, strobeEvents, ctrlByte_eq_ite]
    rfl

/-- Settles O8: `LongCmd` appends `longEvents`, the events of its command and the long delay. -/
theorem longCommandAddsLongDelay : Obligations.LongCommandAddsLongDelay := longCmd_eq

/-! ### Counts and delays (40_transaction.md R109) -/

@[simp] theorem busCount_strobeEvents (sel : Byte) (rs : Bool) (d : Byte) :
    busCount (strobeEvents sel rs d) = 3 := rfl

@[simp] theorem delays_strobeEvents (sel : Byte) (rs : Bool) (d : Byte) :
    delays (strobeEvents sel rs d) = [] := rfl

@[simp] theorem busCount_sendEvents_bw8 (sel d : Byte) (rs : Bool) :
    busCount (sendEvents .bw8 sel d rs) = 3 := by
  simp [sendEvents, busCount]

@[simp] theorem delays_sendEvents_bw8 (sel d : Byte) (rs : Bool) :
    delays (sendEvents .bw8 sel d rs) = [usSettle rs] := by
  simp [sendEvents, delays]

@[simp] theorem busCount_sendEvents_bw4 (sel d : Byte) (rs : Bool) :
    busCount (sendEvents .bw4 sel d rs) = 6 := by
  simp [sendEvents, busCount]

@[simp] theorem delays_sendEvents_bw4 (sel d : Byte) (rs : Bool) :
    delays (sendEvents .bw4 sel d rs) = [usNibble, usSettle rs] := by
  simp [sendEvents, delays]

/-- Settles O7: a strobe has three bus events and no delay, and a `Send` has one or two of them. -/
theorem sendEventCounts : Obligations.SendEventCounts := fun sel d rs =>
  ⟨busCount_sendEvents_bw8 sel d rs, delays_sendEvents_bw8 sel d rs,
    busCount_sendEvents_bw4 sel d rs, delays_sendEvents_bw4 sel d rs⟩

/-! ### What the chips latch (40_transaction.md R103, log 15) -/

/-- The chips whose enable line a selector raises, in the order in which they latch. -/
def selectedChips (sel : Byte) : List Chip :=
  [Chip.chip0, Chip.chip1].filter (fun c => c.enabled sel)

/-- The three legal selectors name chip 0, chip 1 and both (10_state.md R26). -/
theorem selectedChips_of_legal {sel : Byte} (h : selectLegal sel = true) :
    selectedChips sel =
      if sel = 0x04 then [.chip0] else if sel = 0x08 then [.chip1] else [.chip0, .chip1] := by
  have hsel : sel = selChip0 ∨ sel = selChip1 ∨ sel = selBoth := by simpa [selectLegal] using h
  obtain rfl | rfl | rfl := hsel <;> decide

/-- A legal selector leaves RS alone: its bit 0 is clear. -/
theorem rs_of_legal {sel : Byte} (h : selectLegal sel = true) (rs : Bool) :
    (ctrlByte rs ||| sel).getLsbD 0 = rs := by
  have hsel : sel = selChip0 ∨ sel = selChip1 ∨ sel = selBoth := by simpa [selectLegal] using h
  obtain rfl | rfl | rfl := hsel <;> cases rs <;> decide

@[simp] theorem Chip.enabled_ctrlByte (c : Chip) (rs : Bool) :
    c.enabled (ctrlByte rs) = false := by
  cases c <;> cases rs <;> rfl

theorem Chip.enabled_or (c : Chip) (x y : Byte) :
    c.enabled (x ||| y) = (c.enabled x || c.enabled y) := by
  cases c <;> exact BitVec.getLsbD_or

/-- A chip whose enable line is low latches nothing: the line cannot fall. -/
theorem latchOn_of_low {c : Chip} {was : Lines} (h : c.enabled was.ctrl = false) (ctrl : Byte) :
    latchOn c was ctrl = [] := by
  simp [latchOn, h]

/-- A chip latches at the end of a strobe if the selector raised its enable line. -/
theorem latchOn_strobe {sel : Byte} (h : selectLegal sel = true) (c : Chip) (rs : Bool) (d : Byte) :
    latchOn c ⟨ctrlByte rs ||| sel, d⟩ (ctrlByte rs) =
      if c.enabled sel then [⟨c, rs, d⟩] else [] := by
  rw [latchOn, rs_of_legal h]
  simp [Chip.enabled_or]

/-- When both enable lines go low after a strobe, the selected chips latch. -/
theorem latchOn_falling {sel : Byte} (h : selectLegal sel = true) (rs : Bool) (d : Byte) :
    latchOn .chip0 ⟨ctrlByte rs ||| sel, d⟩ (ctrlByte rs) ++
        latchOn .chip1 ⟨ctrlByte rs ||| sel, d⟩ (ctrlByte rs) =
      (selectedChips sel).map (fun c => ⟨c, rs, d⟩) := by
  cases h0 : Chip.chip0.enabled sel <;> cases h1 : Chip.chip1.enabled sel <;>
    simp [latchOn_strobe h, selectedChips, h0, h1]

/-- A strobe leaves RS and the data on the lines, with both enable lines low. -/
@[simp] theorem linesAfter_strobeEvents (was : Lines) (sel : Byte) (rs : Bool) (d : Byte) :
    linesAfter was (strobeEvents sel rs d) = ⟨ctrlByte rs, d⟩ := rfl

/-- Both enable lines are low, so that no chip latches at the next bus write. -/
def Lines.Low (l : Lines) : Prop := ∀ c : Chip, c.enabled l.ctrl = false

theorem Lines.low_ctrlByte (rs : Bool) (d : Byte) : (Lines.mk (ctrlByte rs) d).Low :=
  fun c => Chip.enabled_ctrlByte c rs

/-- Over one strobe each selected chip latches once: the first bus write raises no line, the
second lets none fall, and the third lets the selected ones fall. -/
theorem latches_strobeEvents {sel : Byte} (h : selectLegal sel = true) {was : Lines}
    (hlow : was.Low) (rs : Bool) (d : Byte) :
    latches was (strobeEvents sel rs d) = (selectedChips sel).map (fun c => ⟨c, rs, d⟩) := by
  simp [strobeEvents, latches, latchOn_of_low (hlow _),
    latchOn_of_low (Lines.low_ctrlByte rs d _), latchOn_falling h]

theorem latches_sendEvents_bw8 {sel : Byte} (h : selectLegal sel = true) {was : Lines}
    (hlow : was.Low) (d : Byte) (rs : Bool) :
    latches was (sendEvents .bw8 sel d rs) = (selectedChips sel).map (fun c => ⟨c, rs, d⟩) := by
  simp [sendEvents, latches_append, latches_strobeEvents h hlow, latches]

/-- On a 4-bit bus the lines are low again between the two strobes, so both nibbles are latched. -/
theorem latches_sendEvents_bw4 {sel : Byte} (h : selectLegal sel = true) {was : Lines}
    (hlow : was.Low) (d : Byte) (rs : Bool) :
    latches was (sendEvents .bw4 sel d rs) =
      (selectedChips sel).map (fun c => ⟨c, rs, highNibble d⟩) ++
        (selectedChips sel).map (fun c => ⟨c, rs, lowNibble d⟩) := by
  have hmid := latches_strobeEvents h (Lines.low_ctrlByte rs (highNibble d)) rs (lowNibble d)
  simp [sendEvents, latches_append, latches_strobeEvents h hlow, latches, hmid]

theorem linesAfter_sendEvents (was : Lines) (bw : BusWidth) (sel d : Byte) (rs : Bool) :
    linesAfter was (sendEvents bw sel d rs) =
      ⟨ctrlByte rs, if bw = .bw8 then d else lowNibble d⟩ := by
  cases bw <;> rfl

/-- Settles O9: the latches of one strobe, or of two with the lines low between them. -/
theorem sendIsLatchedOncePerSelectedChip : Obligations.SendIsLatchedOncePerSelectedChip := by
  intro sel d rs was hsel hlow0 hlow1 chips took
  have hlow : was.Low
    | .chip0 => hlow0
    | .chip1 => hlow1
  have hchips : selectedChips sel = chips := selectedChips_of_legal hsel
  refine ⟨?_, ?_, fun bw => ?_⟩
  · rw [latches_sendEvents_bw8 hsel hlow, hchips]
  · rw [latches_sendEvents_bw4 hsel hlow, hchips]
    rfl
  · rw [linesAfter_sendEvents, ctrlByte_eq_ite]
    rfl

end Sys2Proof.Machine

/-! Proofs for the family `41_init.md`: the events of `BEGIN` as one list that only the state's
registers determine, its counts and delays, and a second `BEGIN` after a first. -/

namespace Sys2Proof.Machine

/-! ### The events of `BEGIN` (41_init.md R129) -/

/-- The events of step 2: the mode select three times (41_init.md R123). -/
def modeSelectEvents (sel : Byte) : List Event :=
  (strobeEvents sel false cmdModeSelect ++ [.delay usModeSelect1])
    ++ (strobeEvents sel false cmdModeSelect ++ [.delay usModeSelect23])
    ++ (strobeEvents sel false cmdModeSelect ++ [.delay usModeSelect23])

/-- The events of step 3: narrowing, on a 4-bit bus only (41_init.md R124). -/
def narrowEvents (bw : BusWidth) (sel : Byte) : List Event :=
  if bw = .bw4 then strobeEvents sel false cmdNarrow ++ [.delay usNarrow] else []

/-- The events of `BEGIN` from the state `s`, steps 1 to 6 (41_init.md R121 to R127). -/
def beginEvents (s : State) : List Event :=
  [.delay usPowerUp] ++ modeSelectEvents s.enableSelect ++ narrowEvents s.busWidth s.enableSelect
    ++ sendEvents s.busWidth s.enableSelect s.functionSet false
    ++ longEvents s.busWidth s.enableSelect cmdClear
    ++ longEvents s.busWidth s.enableSelect cmdHome
    ++ sendEvents s.busWidth s.enableSelect s.emCmd false
    ++ sendEvents s.busWidth s.enableSelect s.dcCmd false

theorem initModeSelect_eq (s : State) :
    initModeSelect s = s.emits (modeSelectEvents s.enableSelect) := by
  simp [initModeSelect, initStrobe_eq, emitDelay_eq, modeSelectEvents]

theorem initNarrow_eq (s : State) :
    initNarrow s = s.emits (narrowEvents s.busWidth s.enableSelect) := by
  unfold initNarrow narrowEvents
  cases s.busWidth <;> simp [initStrobe_eq, emitDelay_eq]

/-- `BEGIN` appends its events, all under the selector before it, and then selects chip 0. -/
theorem exec_begin_eq (s : State) :
    exec .begin s = .next ((s.emits (beginEvents s)).setSelect selChip0) := by
  simp [exec, execBegin, initModeSelect_eq, initNarrow_eq, send_eq, longCmd_eq, emitDelay_eq,
    State.emCmd, State.dcCmd, beginEvents]

/-- Settles O10: `BEGIN` appends `beginEvents`, whose strobes are three bus writes each. -/
theorem beginRunsTheHandshake : Obligations.BeginRunsTheHandshake := by
  refine ⟨rfl, ?_⟩
  intro s T cmd
  have hT (d : Byte) : strobeEvents s.enableSelect false d = T d := by
    rw [strobeEvents, ctrlByte_eq_ite]
    rfl
  rw [exec_begin_eq]
  simp only [beginEvents, modeSelectEvents, narrowEvents, longEvents, hT, List.append_assoc]
  rfl

/-! ### Counts and delays of `BEGIN` (41_init.md R131, R133, R134) -/

/-- The least time of a run of events is the sum of its delays. -/
theorem totalDelay_eq_sum_delays (evs : List Event) :
    totalDelay evs = ((delays evs).map BitVec.toNat).sum := by
  induction evs with
  | nil => rfl
  | cons e evs ih => cases e <;> simp [totalDelay, delays, ih]

@[simp] theorem busCount_longEvents (bw : BusWidth) (sel c : Byte) :
    busCount (longEvents bw sel c) = busCount (sendEvents bw sel c false) := by
  simp [longEvents, busCount]

@[simp] theorem delays_longEvents (bw : BusWidth) (sel c : Byte) :
    delays (longEvents bw sel c) = delays (sendEvents bw sel c false) ++ [usLong] := by
  simp [longEvents, delays]

@[simp] theorem busCount_modeSelectEvents (sel : Byte) : busCount (modeSelectEvents sel) = 9 := rfl

@[simp] theorem delays_modeSelectEvents (sel : Byte) :
    delays (modeSelectEvents sel) = [4100, 100, 100] := rfl

/-- On an 8-bit bus eight strobes: three mode selects and five commands. -/
theorem busCount_beginEvents_bw8 {s : State} (h : s.busWidth = .bw8) :
    busCount (beginEvents s) = 24 := by
  simp [beginEvents, narrowEvents, h, busCount]

/-- On a 4-bit bus the narrowing strobe besides, and two strobes to a command. -/
theorem busCount_beginEvents_bw4 {s : State} (h : s.busWidth = .bw4) :
    busCount (beginEvents s) = 42 := by
  simp [beginEvents, narrowEvents, h, busCount]

theorem delays_beginEvents_bw8 {s : State} (h : s.busWidth = .bw8) :
    delays (beginEvents s) = [55000, 4100, 100, 100, 40, 40, 1600, 40, 1600, 40, 40] := by
  simp [beginEvents, narrowEvents, h, delays, usPowerUp, usSettle, usLong]

theorem delays_beginEvents_bw4 {s : State} (h : s.busWidth = .bw4) :
    delays (beginEvents s) =
      [55000, 4100, 100, 100, 40, 1, 40, 1, 40, 1600, 1, 40, 1600, 1, 40, 1, 40] := by
  simp [beginEvents, narrowEvents, h, delays, usPowerUp, usNarrow, usNibble, usSettle, usLong]

/-- Settles O11: the counts and delays of `beginEvents` on each bus; the sums are those of the
delay lists. -/
theorem beginTotals : Obligations.BeginTotals := by
  intro s
  refine ⟨_, beginEvents s, exec_begin_eq s, rfl, fun h => ?_, fun h => ?_⟩
  · have hd := delays_beginEvents_bw8 h
    refine ⟨busCount_beginEvents_bw8 h, ?_, hd⟩
    rw [totalDelay_eq_sum_delays, hd]
    rfl
  · have hd := delays_beginEvents_bw4 h
    refine ⟨busCount_beginEvents_bw4 h, ?_, hd⟩
    rw [totalDelay_eq_sum_delays, hd]
    rfl

/-! ### A second `BEGIN` (41_init.md R132) -/

/-- Settles O12: the first `BEGIN` leaves chip 0 selected and every register `BEGIN` reads as it
was, so the second adds to the trace only, and what a `BEGIN` under selector 0x04 adds. -/
theorem repeatedBeginEndsInTheSameState : Obligations.RepeatedBeginEndsInTheSameState := by
  intro s
  refine ⟨(s.emits (beginEvents s)).setSelect selChip0, _, _, exec_begin_eq s, exec_begin_eq _, ?_,
    exec_begin_eq _, ?_⟩
  · -- The selector that the second `BEGIN` writes is the one it finds.
    rfl
  · -- `beginEvents` reads the registers, which are the same on both sides.
    rfl

end Sys2Proof.Machine

/-! Proofs for the family `42_commands.md`: the fixed commands append the events of one `Send` or one
`LongCmd` and write no other state. -/

namespace Sys2Proof.Machine

/-! ### What each fixed command appends (42_commands.md R141 to R146) -/

theorem exec_clear_eq (s : State) :
    exec .clear s = .next (s.emits (longEvents s.busWidth s.enableSelect cmdClear)) :=
  congrArg Host.Outcome.next (longCmd_eq cmdClear s)

theorem exec_home_eq (s : State) :
    exec .home s = .next (s.emits (longEvents s.busWidth s.enableSelect cmdHome)) :=
  congrArg Host.Outcome.next (longCmd_eq cmdHome s)

theorem exec_cursorLeft_eq (s : State) :
    exec .cursorLeft s =
      .next (s.emits (sendEvents s.busWidth s.enableSelect cmdCursorLeft false)) :=
  congrArg Host.Outcome.next (send_eq cmdCursorLeft false s)

theorem exec_cursorRight_eq (s : State) :
    exec .cursorRight s =
      .next (s.emits (sendEvents s.busWidth s.enableSelect cmdCursorRight false)) :=
  congrArg Host.Outcome.next (send_eq cmdCursorRight false s)

theorem exec_displayLeft_eq (s : State) :
    exec .displayLeft s =
      .next (s.emits (sendEvents s.busWidth s.enableSelect cmdDisplayLeft false)) :=
  congrArg Host.Outcome.next (send_eq cmdDisplayLeft false s)

theorem exec_displayRight_eq (s : State) :
    exec .displayRight s =
      .next (s.emits (sendEvents s.busWidth s.enableSelect cmdDisplayRight false)) :=
  congrArg Host.Outcome.next (send_eq cmdDisplayRight false s)

/-! ### Counts and delays of a long command (42_commands.md R141, R142) -/

/-- On an 8-bit bus a long command is one strobe, its settle delay and the long delay. -/
theorem longEvents_counts_bw8 (sel c : Byte) :
    busCount (longEvents .bw8 sel c) = 3 ∧ delays (longEvents .bw8 sel c) = [40, 1600] := by
  rw [busCount_longEvents, delays_longEvents, busCount_sendEvents_bw8, delays_sendEvents_bw8]
  exact ⟨rfl, rfl⟩

/-- On a 4-bit bus a long command is two strobes, a delay after each, and the long delay. -/
theorem longEvents_counts_bw4 (sel c : Byte) :
    busCount (longEvents .bw4 sel c) = 6 ∧ delays (longEvents .bw4 sel c) = [1, 40, 1600] := by
  rw [busCount_longEvents, delays_longEvents, busCount_sendEvents_bw4, delays_sendEvents_bw4]
  exact ⟨rfl, rfl⟩

/-- Settles O13: `CLEAR` and `HOME` append `longEvents`, whose counts depend on the bus only. -/
theorem clearAndHomeAreLongCommands : Obligations.ClearAndHomeAreLongCommands := by
  refine ⟨rfl, rfl, fun s => ⟨exec_clear_eq s, exec_home_eq s, fun h8 c => ?_, fun h4 c => ?_⟩⟩
  · rw [h8]
    exact longEvents_counts_bw8 s.enableSelect c
  · rw [h4]
    exact longEvents_counts_bw4 s.enableSelect c

/-- Settles O14: each shift appends the events of one command `Send`, whose counts depend on the
bus only. -/
theorem shiftsAreOneCommand : Obligations.ShiftsAreOneCommand := by
  refine ⟨rfl, rfl, rfl, rfl, fun s => ⟨exec_cursorLeft_eq s, exec_cursorRight_eq s,
    exec_displayLeft_eq s, exec_displayRight_eq s, fun h8 c => ?_, fun h4 c => ?_⟩⟩
  · rw [h8]
    exact ⟨busCount_sendEvents_bw8 .., delays_sendEvents_bw8 ..⟩
  · rw [h4]
    exact ⟨busCount_sendEvents_bw4 .., delays_sendEvents_bw4 ..⟩

end Sys2Proof.Machine

/-! Proofs for the family `43_flags.md`: the ten flag operations as one read-modify-write, told
apart by the bit they write and the value they give it, and the laws of the family from the laws
of `setBit`. -/

namespace Sys2Proof.Machine

/-! ### Laws of the read-modify-write of one bit (43_flags.md R160) -/

theorem setBit_true (reg : Byte) (bit : Nat) :
    setBit reg bit true = reg ||| ((1 : Byte) <<< bit) := by
  have clear_or_set (m : Byte) : (reg &&& ~~~m) ||| m = reg ||| m := by
    ext k hk
    cases h : m[k] <;> simp [h]
  exact clear_or_set _

theorem setBit_false (reg : Byte) (bit : Nat) :
    setBit reg bit false = reg &&& ~~~((1 : Byte) <<< bit) := by
  simp [setBit]

/-- `getLsbD_setBit` at every index: beyond the byte, no bit is set on either side. -/
theorem getLsbD_setBit_of_bit_lt (reg : Byte) {bit : Nat} (hbit : bit < 8) (v : Bool) (k : Nat) :
    (setBit reg bit v).getLsbD k = if k = bit then v else reg.getLsbD k := by
  obtain hk | hk := Nat.lt_or_ge k 8
  · exact getLsbD_setBit reg bit v hk
  · rw [if_neg (by omega), BitVec.getLsbD_of_ge _ k hk, BitVec.getLsbD_of_ge _ k hk]

theorem setBit_setBit_same (reg : Byte) (bit : Nat) (v : Bool) :
    setBit (setBit reg bit v) bit v = setBit reg bit v := by
  apply BitVec.eq_of_getLsbD_eq
  intro k hk
  simp only [getLsbD_setBit, hk]
  split <;> rfl

theorem setBit_comm (reg : Byte) {a b : Nat} (h : a ≠ b) (v w : Bool) :
    setBit (setBit reg a v) b w = setBit (setBit reg b w) a v := by
  apply BitVec.eq_of_getLsbD_eq
  intro k hk
  simp only [getLsbD_setBit, hk]
  by_cases ha : k = a
  · simp [ha, h]
  · simp [ha]

/-! ### A flag, by its register and position (43_flags.md R160)

A flag is `(true, bit)` in `entry_mode` or `(false, bit)` in `display_control`. -/

/-- Write one flag, whichever register holds it. -/
def State.writeFlag (s : State) : Bool × Nat → Bool → State
  | (true, bit), v => s.setEM bit v
  | (false, bit), v => s.setDC bit v

/-- The command that transmits the whole of one of the two registers. -/
def State.flagCommand (s : State) (em : Bool) : Byte := if em then s.emCmd else s.dcCmd

/-- `SetFlagEM` or `SetFlagDC`, by the register that holds the flag. -/
def setFlag : Bool × Nat → Bool → State → State
  | (true, bit), v, s => setFlagEM bit v s
  | (false, bit), v, s => setFlagDC bit v s

/-- The flag an operation writes and the value it gives it (43_flags.md R161 to R170). -/
def flagWrite : Instr → Option ((Bool × Nat) × Bool)
  | .autoscrollOn => some ((true, bitSH), true)
  | .autoscrollOff => some ((true, bitSH), false)
  | .entryInc => some ((true, bitID), true)
  | .entryDec => some ((true, bitID), false)
  | .blinkOn => some ((false, bitB), true)
  | .blinkOff => some ((false, bitB), false)
  | .cursorOn => some ((false, bitC), true)
  | .cursorOff => some ((false, bitC), false)
  | .displayOn => some ((false, bitD), true)
  | .displayOff => some ((false, bitD), false)
  | _ => none

/-- A flag operation is `setFlag` of its flag and value, in every state. -/
theorem exec_of_flagWrite {i : Instr} {f : Bool × Nat} {v : Bool} (h : flagWrite i = some (f, v))
    (s : State) : exec i s = .next (setFlag f v s) := by
  cases i with
  | autoscrollOn | autoscrollOff | entryInc | entryDec => cases h; rfl
  | blinkOn | blinkOff | cursorOn | cursorOff | displayOn | displayOff => cases h; rfl
  | begin | clear | home | cursorLeft | cursorRight | displayLeft | displayRight => cases h
  | setCursor | createChar | selectLcd | echo | writeN | writeUntil => cases h

section Flag
variable (s : State) (f : Bool × Nat) (v : Bool)

@[simp] theorem State.writeFlag_busWidth : (s.writeFlag f v).busWidth = s.busWidth := by
  obtain ⟨_ | _, _⟩ := f <;> rfl

@[simp] theorem State.writeFlag_enableSelect :
    (s.writeFlag f v).enableSelect = s.enableSelect := by
  obtain ⟨_ | _, _⟩ := f <;> rfl

@[simp] theorem State.writeFlag_trace : (s.writeFlag f v).trace = s.trace := by
  obtain ⟨_ | _, _⟩ := f <;> rfl

theorem State.writeFlag_emits (evs : List Event) :
    (s.emits evs).writeFlag f v = (s.writeFlag f v).emits evs := by
  obtain ⟨_ | _, _⟩ := f <;> rfl

theorem State.writeFlag_trace_nil :
    { s.writeFlag f v with trace := [] } = State.writeFlag { s with trace := [] } f v := by
  obtain ⟨_ | _, _⟩ := f <;> rfl

@[simp] theorem State.flagCommand_emits (evs : List Event) (em : Bool) :
    (s.emits evs).flagCommand em = s.flagCommand em := rfl

theorem State.writeFlag_writeFlag_same : (s.writeFlag f v).writeFlag f v = s.writeFlag f v := by
  obtain ⟨_ | _, bit⟩ := f <;> simp [State.writeFlag, State.setEM, State.setDC, setBit_setBit_same]

/-- Two flags of one register are two bits of it, and of two registers are two fields. -/
theorem State.writeFlag_comm {f g : Bool × Nat} (h : f ≠ g) (v w : Bool) :
    (s.writeFlag f v).writeFlag g w = (s.writeFlag g w).writeFlag f v := by
  obtain ⟨_ | _, a⟩ := f <;> obtain ⟨_ | _, b⟩ := g
  · have hab : a ≠ b := by simpa using h
    simp [State.writeFlag, State.setDC, setBit_comm s.displayControl hab]
  · rfl
  · rfl
  · have hab : a ≠ b := by simpa using h
    simp [State.writeFlag, State.setEM, setBit_comm s.entryMode hab]

/-- `SetFlagEM` and `SetFlagDC` write the flag first, and then transmit the whole register. -/
theorem setFlag_eq :
    setFlag f v s = (s.writeFlag f v).emits
      (sendEvents s.busWidth s.enableSelect ((s.writeFlag f v).flagCommand f.1) false) := by
  obtain ⟨_ | _, bit⟩ := f
  · exact setFlagDC_eq bit v s
  · exact setFlagEM_eq bit v s

@[simp] theorem setFlag_busWidth : (setFlag f v s).busWidth = s.busWidth := by simp [setFlag_eq]

@[simp] theorem setFlag_enableSelect : (setFlag f v s).enableSelect = s.enableSelect := by
  simp [setFlag_eq]

/-- The byte sent is that of the register as the operation leaves it. -/
theorem setFlag_trace :
    (setFlag f v s).trace = s.trace ++
      sendEvents s.busWidth s.enableSelect ((setFlag f v s).flagCommand f.1) false := by
  simp [setFlag_eq]

/-- But for the trace, `setFlag` is the write of its flag. -/
theorem setFlag_trace_nil :
    { setFlag f v s with trace := [] } = State.writeFlag { s with trace := [] } f v := by
  rw [setFlag_eq, ← State.writeFlag_trace_nil]
  rfl

/-- A second run finds the flag written, so it only sends the same events again. -/
theorem setFlag_setFlag_same :
    setFlag f v (setFlag f v s) = (setFlag f v s).emits
      (sendEvents s.busWidth s.enableSelect ((setFlag f v s).flagCommand f.1) false) := by
  have hwritten : (setFlag f v s).writeFlag f v = setFlag f v s := by
    rw [setFlag_eq, State.writeFlag_emits, State.writeFlag_writeFlag_same]
  rw [setFlag_eq (setFlag f v s), hwritten, setFlag_busWidth, setFlag_enableSelect]

/-- Different flags commute but for the trace. -/
theorem setFlag_comm {f g : Bool × Nat} (h : f ≠ g) (v w : Bool) :
    { setFlag g w (setFlag f v s) with trace := [] } =
      { setFlag f v (setFlag g w s) with trace := [] } := by
  simp only [setFlag_trace_nil, State.writeFlag_comm _ h]

end Flag

theorem sendEvents_ne_nil (bw : BusWidth) (sel d : Byte) (rs : Bool) :
    sendEvents bw sel d rs ≠ [] := by
  cases bw <;> simp [sendEvents]

/-! ### The ten operations (43_flags.md R161 to R170) -/

/-- An entry-mode operation: the new register is written, and then sent. -/
theorem exec_entryMode_eq {i : Instr} {bit : Nat} {v : Bool} {s : State} {em : Byte}
    (h : flagWrite i = some ((true, bit), v)) (hem : setBit s.entryMode bit v = em) :
    exec i s = .next
      { s with
        entryMode := em
        trace := s.trace ++ sendEvents s.busWidth s.enableSelect (0x04 ||| em) false } := by
  subst hem
  rw [exec_of_flagWrite h, setFlag_eq]
  rfl

/-- A display-control operation: the new register is written, and then sent. -/
theorem exec_displayControl_eq {i : Instr} {bit : Nat} {v : Bool} {s : State} {dc : Byte}
    (h : flagWrite i = some ((false, bit), v)) (hdc : setBit s.displayControl bit v = dc) :
    exec i s = .next
      { s with
        displayControl := dc
        trace := s.trace ++ sendEvents s.busWidth s.enableSelect (0x08 ||| dc) false } := by
  subst hdc
  rw [exec_of_flagWrite h, setFlag_eq]
  rfl

/-- Settles O15: each operation sets or clears its bit of `entry_mode` and sends the register. -/
theorem entryModeOperations : Obligations.EntryModeOperations :=
  ⟨rfl, rfl, rfl, rfl, fun s =>
    ⟨exec_entryMode_eq rfl (setBit_true s.entryMode 0),
      exec_entryMode_eq rfl (setBit_false s.entryMode 0),
      exec_entryMode_eq rfl (setBit_true s.entryMode 1),
      exec_entryMode_eq rfl (setBit_false s.entryMode 1)⟩⟩

/-- Settles O16: each operation sets or clears its bit of `display_control` and sends the
register. -/
theorem displayControlOperations : Obligations.DisplayControlOperations :=
  ⟨rfl, rfl, rfl, rfl, rfl, rfl, fun s =>
    ⟨exec_displayControl_eq rfl (setBit_true s.displayControl 0),
      exec_displayControl_eq rfl (setBit_false s.displayControl 0),
      exec_displayControl_eq rfl (setBit_true s.displayControl 1),
      exec_displayControl_eq rfl (setBit_false s.displayControl 1),
      exec_displayControl_eq rfl (setBit_true s.displayControl 2),
      exec_displayControl_eq rfl (setBit_false s.displayControl 2)⟩⟩

/-! ### Laws of the family (43_flags.md R171 to R173) -/

/-- Settles O17: the one field written is the register, and `setBit` changes one bit of it. -/
theorem flagIsolation : Obligations.FlagIsolation := by
  constructor
  · intro e he s
    obtain ⟨hflag, hbit⟩ : flagWrite e.1 = some ((true, e.2.1), e.2.2) ∧ e.2.1 < 8 := by
      revert e; decide
    exact ⟨_, exec_entryMode_eq hflag rfl, getLsbD_setBit_of_bit_lt _ hbit _, rfl⟩
  · intro e he s
    obtain ⟨hflag, hbit⟩ : flagWrite e.1 = some ((false, e.2.1), e.2.2) ∧ e.2.1 < 8 := by
      revert e; decide
    exact ⟨_, exec_displayControl_eq hflag rfl, getLsbD_setBit_of_bit_lt _ hbit _, rfl⟩

/-- Settles O18: a second run finds the flag written, and sends the register again. -/
theorem flagIdempotenceWithRetransmission : Obligations.FlagIdempotenceWithRetransmission := by
  intro i hi s
  have hflag : (flagWrite i).isSome := by revert i; decide
  obtain ⟨⟨f, v⟩, h⟩ := Option.isSome_iff_exists.mp hflag
  refine ⟨setFlag f v s, _, exec_of_flagWrite h s, sendEvents_ne_nil _ _ _ _,
    setFlag_trace s f v, ?_⟩
  rw [exec_of_flagWrite h, setFlag_setFlag_same]
  rfl

/-- An entry of the list of `FlagOperationsCommute` names an operation and the flag it writes. -/
theorem flagOperationsCommute_entry : ∀ a ∈ [(Instr.autoscrollOn, true, 0),
    (.autoscrollOff, true, 0), (.entryInc, true, 1), (.entryDec, true, 1), (.blinkOn, false, 0),
    (.blinkOff, false, 0), (.cursorOn, false, 1), (.cursorOff, false, 1), (.displayOn, false, 2),
    (.displayOff, false, 2)], ∃ v, flagWrite a.1 = some (a.2, v) := by decide

/-- Settles O19: writes of different flags commute, and each run sends the register it leaves. -/
theorem flagOperationsCommute : Obligations.FlagOperationsCommute := by
  intro a ha b hb hab s
  obtain ⟨v, hv⟩ := flagOperationsCommute_entry a ha
  obtain ⟨w, hw⟩ := flagOperationsCommute_entry b hb
  refine ⟨_, _, _, _, exec_of_flagWrite hv _, exec_of_flagWrite hw _, exec_of_flagWrite hw _,
    exec_of_flagWrite hv _, setFlag_comm s hab v w, ?_, ?_⟩
  · rw [setFlag_trace, setFlag_busWidth, setFlag_enableSelect]
    rfl
  · rw [setFlag_trace, setFlag_busWidth, setFlag_enableSelect]
    rfl

end Sys2Proof.Machine

/-! Proofs for the family `44_cursor_glyph.md`: `SET_CURSOR` on both sides of its range gate, and
`CREATE_CHAR` as one command `Send` followed by a text of eight bytes. -/

namespace Sys2Proof.Machine

/-! ### `SET_CURSOR` and its gate (44_cursor_glyph.md R191, R192) -/

theorem cursorInRange_eq_false_iff {line col : Byte} :
    cursorInRange line col = false ↔ 2 ≤ line.toNat ∨ 40 ≤ col.toNat := by
  simp only [cursorInRange, Bool.and_eq_false_iff, decide_eq_false_iff_not, not_lt]

/-- Out of range, `SET_CURSOR` answers the state it was given. -/
theorem exec_setCursor_of_outOfRange {line col : Byte} (s : State)
    (h : 2 ≤ line.toNat ∨ 40 ≤ col.toNat) : exec (.setCursor line col) s = .next s := by
  simp [exec, execSetCursor, cursorInRange_eq_false_iff.2 h]

/-- For a line the gate admits, the base is the entry of the line table. -/
theorem State.lineBaseOf_eq_getElem (s : State) {line : Byte} (h : line.toNat < 2) :
    s.lineBaseOf line = s.lineBase[line.toNat] := by
  obtain h0 | h1 : line.toNat = 0 ∨ line.toNat = 1 := by omega
  · simp [State.lineBaseOf, h0]
  · simp [State.lineBaseOf, h1]

/-- Settles O21: the gate splits the operands, and the command byte reads the line table. -/
theorem setCursorSendsOneCommandInRangeOnly :
    Obligations.SetCursorSendsOneCommandInRangeOnly := by
  intro line col s
  refine ⟨rfl, fun hline hcol => ?_, exec_setCursor_of_outOfRange s⟩
  rw [exec_setCursor_of_inRange s hline hcol, State.cursorCommand, s.lineBaseOf_eq_getElem hline]
  rfl

/-! ### Counts and delays of a text (45_text.md R211) -/

theorem busCount_textEvents_bw8 (sel : Byte) (text : List Byte) :
    busCount (textEvents .bw8 sel text) = 3 * text.length := by
  induction text with
  | nil => rfl
  | cons b bs ih =>
    rw [textEvents_cons, busCount_append, busCount_sendEvents_bw8, ih, List.length_cons]
    omega

theorem busCount_textEvents_bw4 (sel : Byte) (text : List Byte) :
    busCount (textEvents .bw4 sel text) = 6 * text.length := by
  induction text with
  | nil => rfl
  | cons b bs ih =>
    rw [textEvents_cons, busCount_append, busCount_sendEvents_bw4, ih, List.length_cons]
    omega

theorem delays_textEvents_bw8 (sel : Byte) (text : List Byte) :
    delays (textEvents .bw8 sel text) = text.flatMap (fun _ => [2]) := by
  induction text with
  | nil => rfl
  | cons b bs ih =>
    rw [textEvents_cons, delays_append, delays_sendEvents_bw8, ih]
    rfl

theorem delays_textEvents_bw4 (sel : Byte) (text : List Byte) :
    delays (textEvents .bw4 sel text) = text.flatMap (fun _ => [1, 2]) := by
  induction text with
  | nil => rfl
  | cons b bs ih =>
    rw [textEvents_cons, delays_append, delays_sendEvents_bw4, ih]
    rfl

/-! ### `CREATE_CHAR` (44_cursor_glyph.md R195 to R197) -/

/-- The events of `CREATE_CHAR`: its CGRAM address command, then its rows as a text. -/
def glyphEvents (bw : BusWidth) (sel slot : Byte) (rows : List Byte) : List Event :=
  sendEvents bw sel (cgramCommand slot) false ++ textEvents bw sel rows

theorem exec_createChar_eq (slot p0 p1 p2 p3 p4 p5 p6 p7 : Byte) (s : State) :
    exec (.createChar slot p0 p1 p2 p3 p4 p5 p6 p7) s = .next (s.emits
      (glyphEvents s.busWidth s.enableSelect slot [p0, p1, p2, p3, p4, p5, p6, p7])) := by
  simp only [exec, execCreateChar, send_eq, sendText_eq, State.emits_busWidth,
    State.emits_enableSelect, State.emits_emits, glyphEvents]

theorem glyphEvents_counts_bw8 (sel slot : Byte) (rows : List Byte) :
    busCount (glyphEvents .bw8 sel slot rows) = 3 + 3 * rows.length ∧
    (delays (glyphEvents .bw8 sel slot rows)).length = rows.length + 1 := by
  rw [glyphEvents, busCount_append, delays_append, busCount_sendEvents_bw8,
    delays_sendEvents_bw8, busCount_textEvents_bw8, delays_textEvents_bw8]
  simp

theorem glyphEvents_counts_bw4 (sel slot : Byte) (rows : List Byte) :
    busCount (glyphEvents .bw4 sel slot rows) = 6 + 6 * rows.length ∧
    (delays (glyphEvents .bw4 sel slot rows)).length = 2 * rows.length + 2 := by
  rw [glyphEvents, busCount_append, delays_append, busCount_sendEvents_bw4,
    delays_sendEvents_bw4, busCount_textEvents_bw4, delays_textEvents_bw4]
  simp [Nat.mul_comm]

/-- The slot wraps: its low three bits select the glyph (R196). -/
theorem cgramCommand_and_seven (slot : Byte) :
    cgramCommand (slot &&& 0x07) = cgramCommand slot := by
  simp [cgramCommand, BitVec.and_assoc]

/-- The address bits of the slot stay clear of the command bit. -/
theorem cgramCommand_toNat (slot : Byte) :
    (cgramCommand slot).toNat = 0x40 + 8 * (slot.toNat % 8) := by
  have hlow : (slot &&& 0x07).toNat = slot.toNat % 8 := by
    rw [BitVec.toNat_and]
    exact Nat.and_two_pow_sub_one_eq_mod slot.toNat 3
  have hshift : ((slot &&& 0x07) <<< 3).toNat = 8 * (slot.toNat % 8) := by
    rw [BitVec.toNat_shiftLeft, hlow, Nat.shiftLeft_eq]
    omega
  have hdisjoint : 0x40 ||| 8 * (slot.toNat % 8) = 0x40 + 8 * (slot.toNat % 8) :=
    (Nat.two_pow_add_eq_or_of_lt (i := 6) (by omega) 1).symm
  rw [cgramCommand, BitVec.toNat_or, hshift]
  exact hdisjoint

/-- Settles O23: the events are those of the address command and of a text of eight bytes, and the
slot enters them by its low three bits only. -/
theorem createCharSendsAddressThenRows : Obligations.CreateCharSendsAddressThenRows := by
  intro slot p0 p1 p2 p3 p4 p5 p6 p7 s evs
  have hexec := exec_createChar_eq slot p0 p1 p2 p3 p4 p5 p6 p7 s
  refine ⟨rfl, hexec, ?_, cgramCommand_toNat slot, fun h8 => ?_, fun h4 => ?_⟩
  · rw [hexec, exec_createChar_eq, glyphEvents, glyphEvents, cgramCommand_and_seven]
  · have hevs : evs = glyphEvents .bw8 s.enableSelect slot [p0, p1, p2, p3, p4, p5, p6, p7] :=
      h8 ▸ rfl
    rw [hevs]
    exact glyphEvents_counts_bw8 ..
  · have hevs : evs = glyphEvents .bw4 s.enableSelect slot [p0, p1, p2, p3, p4, p5, p6, p7] :=
      h4 ▸ rfl
    rw [hevs]
    exact glyphEvents_counts_bw4 ..

end Sys2Proof.Machine

/-! Proofs for the family `45_text.md`: `WRITE_N` sends every byte of its text, `WRITE_UNTIL` every
byte before its terminator, and an unterminated text leaves the FSM waiting in `PAYLOAD`. -/

namespace Sys2Proof.Machine

/-! ### `WRITE_N` (45_text.md R211) -/

theorem exec_writeN_eq (text : List Byte) (s : State) :
    exec (.writeN text) s = .next (s.emits (textEvents s.busWidth s.enableSelect text)) :=
  congrArg Host.Outcome.next (sendText_eq text s)

/-- Settles O24: the events are those of the text, whose counts go by the bus width. -/
theorem writeNSendsEveryByte : Obligations.WriteNSendsEveryByte := by
  intro text s evs
  refine ⟨fun _ => rfl, exec_writeN_eq text s, ?_, fun h8 => ?_, fun h4 => ?_⟩
  · rintro rfl
    rfl
  · have hevs : evs = textEvents .bw8 s.enableSelect text := h8 ▸ rfl
    exact hevs ▸ ⟨busCount_textEvents_bw8 .., delays_textEvents_bw8 ..⟩
  · have hevs : evs = textEvents .bw4 s.enableSelect text := h4 ▸ rfl
    exact hevs ▸ ⟨busCount_textEvents_bw4 .., delays_textEvents_bw4 ..⟩

/-! ### `WRITE_UNTIL` (45_text.md R212) -/

theorem exec_writeUntil_eq {term : Byte} {text : List Byte} (hm : term ∉ text) (s : State) :
    exec (.writeUntil term text) s =
      .next (s.emits (textEvents s.busWidth s.enableSelect text)) :=
  congrArg Host.Outcome.next (sendUntil_append term text [] s hm)

/-- Every byte on offer before a terminator is sent, and the FSM is back in `PAYLOAD`, whatever
follows. -/
theorem payload_unterminated_busy (op : Op) (hdr : List Byte) {term : Byte} {text r : List Byte}
    {s : State} (hr : s.rst = none) (hm : term ∉ text) (hs : s.opStream = text ++ r) :
    Busy (s.goto (.payload op hdr (.upTo term)))
      ((sendText text (s.offer r)).goto (.payload op hdr (.upTo term))) := by
  induction text generalizing s with
  | nil =>
    obtain rfl : s.opStream = r := hs
    exact .refl _
  | cons b bs ih =>
    obtain ⟨hb, hbs⟩ : term ≠ b ∧ term ∉ bs := by simpa using hm
    have hrest := ih (s := send b true (s.offer (bs ++ r))) (by simpa using hr) hbs (by simp)
    rw [send_offer, State.offer_offer, ← send_goto_offer b true s (.payload op hdr (.upTo term))]
      at hrest
    exact .trans (payload_text hr (Ne.symm hb) rfl hs) hrest

/-- From `IDLE`, with `WRITE_UNTIL` on offer up to its terminator and nothing more, the FSM sends
the text and waits in `PAYLOAD`. -/
theorem writeUntil_unterminated_busy {term : Byte} {text : List Byte} {s : State}
    (hr : s.rst = none) (hf : s.fsm = .idle) (hm : term ∉ text)
    (hs : s.opStream = Op.writeUntil.toByte :: term :: text) :
    Busy (hostTick s)
      ((sendText text (s.offer [])).goto (.payload .writeUntil [term] (.upTo term))) :=
  have hheader := header_busy (op := .writeUntil) (hdr := [term]) hr hf rfl hs
  have hhead := enterExec_busy .writeUntil [term] (s.offer text) hr
  have htext := payload_unterminated_busy .writeUntil [term] (s := s.offer text) hr hm
    (List.append_nil text).symm
  hheader.trans (hhead.trans htext)

/-- A state that one FSM transition keeps is kept by every number of them. -/
theorem hostTicks_of_fixed {s : State} (h : hostTick s = s) (n : Nat) : hostTicks n s = s := by
  induction n with
  | zero => rfl
  | succ n ih => rw [hostTicks, h, ih]

/-- A run that comes to a state that a transition keeps stays there. -/
theorem Busy.eventually_fixed {s t : State} (hb : Busy (hostTick s) t) (ht : hostTick t = t) :
    ∃ n, ∀ m, n ≤ m → hostTicks m s = t := by
  obtain ⟨n, hn, -⟩ := hb.ticks
  refine ⟨n + 1, fun m hm => ?_⟩
  obtain ⟨k, rfl⟩ := Nat.exists_eq_add_of_le hm
  rw [hostTicks_add, hostTicks, hn, hostTicks_of_fixed ht]

/-- Settles O25: the terminator cuts the text off in `exec`; without one the run sends the text and
comes to `PAYLOAD` with nothing on offer, which a transition keeps. -/
theorem writeUntilStopsAtTheTerminator : Obligations.WriteUntilStopsAtTheTerminator := by
  intro term text s hm evs
  refine ⟨rfl, exec_writeUntil_eq hm s, ?_, fun hr hf hs => ?_⟩
  · rintro rfl
    rw [exec_writeUntil_eq hm, textEvents_nil, State.emits_nil]
  · have hbusy := writeUntil_unterminated_busy hr hf hm hs
    rw [sendText_eq] at hbusy
    exact hbusy.eventually_fixed (hostTick_stalled hr rfl (.inr (.inr ⟨_, _, _, rfl⟩)))

end Sys2Proof.Machine

/-! Proofs for the family `46_panel.md`: `SELECT_LCD` by the selector its operand names, and `ECHO`
with the data strobe that follows it. -/

namespace Sys2Proof.Machine

/-! ### `SELECT_LCD` (46_panel.md R231) -/

/-- Index 0 names chip 0. -/
theorem panelPattern_of_toNat_eq_zero {n : Byte} (h : n.toNat = 0) :
    panelPattern n = some selChip0 := by
  simp [panelPattern, h]

/-- Index 1 names chip 1. -/
theorem panelPattern_of_toNat_eq_one {n : Byte} (h : n.toNat = 1) :
    panelPattern n = some selChip1 := by
  simp [panelPattern, h]

/-- No other index names a selector. -/
theorem panelPattern_of_two_le {n : Byte} (h : 2 ≤ n.toNat) : panelPattern n = none := by
  unfold panelPattern
  split
  · omega
  · omega
  · rfl

/-- An operand that names a selector selects it. -/
theorem exec_selectLcd_of_pattern {n v : Byte} (h : panelPattern n = some v) (s : State) :
    exec (.selectLcd n) s = .next (s.setSelect v) := by
  simp [exec, execSelectLcd, h]

/-- An operand that names no selector leaves the state as it is. -/
theorem exec_selectLcd_of_no_pattern {n : Byte} (h : panelPattern n = none) (s : State) :
    exec (.selectLcd n) s = .next s := by
  simp [exec, execSelectLcd, h]

/-- Settles O26: the operand names chip 0, chip 1 or no selector. -/
theorem selectLcdSelectsChipZeroOrOne : Obligations.SelectLcdSelectsChipZeroOrOne := fun _ s =>
  ⟨rfl,
    fun h0 => exec_selectLcd_of_pattern (panelPattern_of_toNat_eq_zero h0) s,
    fun h1 => exec_selectLcd_of_pattern (panelPattern_of_toNat_eq_one h1) s,
    fun h2 => exec_selectLcd_of_no_pattern (panelPattern_of_two_le h2) s⟩

/-! ### `ECHO` (46_panel.md R232) -/

/-- `ECHO` selects both chips. -/
theorem exec_echo (s : State) : exec .echo s = .next (s.setSelect selBoth) := rfl

/-- With both chips selected a data strobe raises EN1 and EN2 together, with RS high. -/
theorem strobe_data_of_selBoth {t : State} (h : t.enableSelect = selBoth) (d : Byte) :
    strobe true d t = t.emits [.bus 0x01 d, .bus 0x0D d, .bus 0x01 d] := by
  have hctrl : ctrlByte true ||| selBoth = 0x0D := by decide
  rw [strobe_eq, h, strobeEvents, hctrl, ctrlByte_eq_ite, if_pos rfl]

/-- Settles O27: the state `ECHO` answers selects both chips, and a strobe reads the selector. -/
theorem echoSelectsBothChips : Obligations.EchoSelectsBothChips := by
  refine ⟨rfl, fun s => ⟨exec_echo s, fun d t h => ?_⟩⟩
  rw [exec_echo] at h
  obtain rfl : s.setSelect selBoth = t := by injection h
  exact strobe_data_of_selBoth (s.setSelect_enableSelect selBoth) d

end Sys2Proof.Machine

/-! Proofs for the families `60_exceptions.md` and `70_reset_and_hazards.md`: how `FAULT` is entered
and left, what reset loads and beats, that every step answers, the least durations, and operations
the host does not finish. -/

namespace Sys2Proof.Machine

/-! ### Steps without an operation on offer -/

/-- With no operation on offer, a step is one transition of the FSM. -/
theorem step_of_nextOperation_eq_none {s : State} (h : nextOperation s = none) :
    step s = .next (hostTick s) := by
  rw [step, h]

/-- An operation is on offer only in `IDLE`, with no reset pending and bytes that decode to it. -/
theorem nextOperation_eq_none {s : State}
    (h : ∀ i rest, s.rst = none → s.fsm = .idle → decode s.opStream ≠ .op i rest) :
    nextOperation s = none := by
  rw [Option.eq_none_iff_forall_not_mem]
  rintro ⟨i, rest⟩ hnext
  obtain ⟨hr, hf, hd⟩ := nextOperation_eq_some.1 hnext
  exact h i rest hr hf hd

/-- A step with a pending reset takes the reset, whatever is on offer (60_exceptions.md R254). -/
theorem step_reset {s : State} {cfg : Cfg} (h : s.rst = some cfg) :
    step s = .next (applyReset cfg s) := by
  have hnext : nextOperation s = none := nextOperation_eq_none fun _ _ hr => by simp [h] at hr
  rw [step_of_nextOperation_eq_none hnext, hostTick_reset h]

/-! ### Entering `FAULT` (60_exceptions.md R251) -/

/-- Of the opcode bytes only the illegal ones lead to `FAULT`. -/
theorem acceptOpcode_fsm_eq_fault {b : Byte} {s : State} :
    (acceptOpcode b s).fsm = .fault ↔ Op.ofByte b = none := by
  cases h : Op.ofByte b with
  | none => simp [acceptOpcode_illegal h]
  | some op =>
    rw [acceptOpcode_toByte h]
    split <;> simp [enterExec]

theorem acceptHeader_fsm_ne_fault (op : Op) (got : List Byte) (b : Byte) (s : State) :
    (acceptHeader op got b s).fsm ≠ .fault := by
  unfold acceptHeader
  split <;> simp [enterExec]

theorem execStmts_fsm_ne_fault (l : List Stmt) (p : ExecPos) (s : State) :
    (execStmts l p s).fsm ≠ .fault := by
  obtain ⟨-, -, -, -, -, -, hne, -⟩ := execStmts_frame l p s
  exact hne

/-- A transition that enters `FAULT` accepted an illegal opcode byte in `IDLE`. -/
theorem tick_enters_fault {inp : PortIn} {s : State} (hne : s.fsm ≠ .fault)
    (hfault : (tick inp s).fsm = .fault) :
    inp.rst = false ∧ s.fsm = .idle ∧ inp.opValid = true ∧ Op.ofByte inp.opData = none := by
  cases hr : inp.rst with
  | true => simp [tick_rst inp s hr] at hfault
  | false =>
    cases hs : s.fsm with
    | idle =>
      rw [tick_idle hr hs] at hfault
      split at hfault
      · next hv => exact ⟨rfl, rfl, hv, acceptOpcode_fsm_eq_fault.1 hfault⟩
      · exact absurd hfault hne
    | hdr op got =>
      rw [tick_hdr hr hs] at hfault
      split at hfault
      · exact absurd hfault (acceptHeader_fsm_ne_fault op got inp.opData s)
      · exact absurd hfault hne
    | exec p =>
      rw [tick_exec hr hs] at hfault
      exact absurd hfault (execStmts_fsm_ne_fault _ p s)
    | payload op hdr pay =>
      rw [tick_payload hr hs] at hfault
      split at hfault
      · simp [acceptPayload] at hfault
      · exact absurd hfault hne
    | wait us ret =>
      rw [tick_wait hr hs] at hfault
      split at hfault
      · simp at hfault
      · exact absurd hfault hne
    | fault => exact absurd hs hne

/-- A step takes an illegal opcode byte off the stream and enters `FAULT`. -/
theorem step_illegal {s : State} {b : Byte} {r : List Byte} (hr : s.rst = none)
    (hf : s.fsm = .idle) (hs : s.opStream = b :: r) (hb : b.toNat = 0 ∨ 24 ≤ b.toNat) :
    step s = .next (raiseIllegalOp (s.offer r)) := by
  have hnext : nextOperation s = none := nextOperation_eq_none fun i rest _ _ => by
    simp [hs, decode_illegal r hb]
  rw [step_of_nextOperation_eq_none hnext, hostTick_idle hr hf hs,
    acceptOpcode_illegal (Op.ofByte_eq_none.2 hb)]
  rfl

/-- Settles O34: an illegal byte is one the opcode map does not name, and no transition but that
of `IDLE` on such a byte leads to `FAULT`. -/
theorem illegalOpcodeEntersFault : Obligations.IllegalOpcodeEntersFault := by
  refine ⟨fun inp s hr hf hv hb => ?_, fun s b r hr hf hs hb => step_illegal hr hf hs hb,
    fun inp s hne hfault => ?_, fun _ _ _ h => exec_fsm h, rfl⟩
  · have htick : tick inp s = raiseIllegalOp s := by
      rw [tick_idle_byte hr hf hv, acceptOpcode_illegal (Op.ofByte_eq_none.2 hb)]
    exact ⟨htick, fun inp' => by simp [htick, outputs]⟩
  · obtain ⟨hr, hf, hv, hb⟩ := tick_enters_fault hne hfault
    exact ⟨hr, hf, hv, Op.ofByte_eq_none.1 hb⟩

/-! ### `FAULT` until `rst` (60_exceptions.md R256) -/

theorem accepts_of_fault (inp : PortIn) {s : State} (h : s.fsm = .fault) :
    accepts inp s = false := by
  simp [accepts, outputs, h]

/-- Settles O35: no transition but that of `rst` leads out of `FAULT`, and no operation is on offer
there. -/
theorem faultIsStickyUntilReset : Obligations.FaultIsStickyUntilReset := by
  refine ⟨fun inp s hf hr => ⟨tick_fault hr hf, accepts_of_fault inp hf⟩, fun s hf hr => ?_,
    fun inp s _ hr => ?_, fun s cfg _ hr => ⟨_, step_reset hr, rfl⟩⟩
  · have hnext : nextOperation s = none := nextOperation_eq_none fun _ _ _ hidle => by
      simp [hf] at hidle
    rw [step_of_nextOperation_eq_none hnext, hostTick_fault hr hf]
  · rw [tick_rst inp s hr]
    rfl

/-! ### Every step answers (60_exceptions.md R250) -/

/-- `SET_CURSOR` on both sides of its gate (44_cursor_glyph.md R191, R192). -/
theorem exec_setCursor_eq (line col : Byte) (s : State) :
    exec (.setCursor line col) s = .next (s.emits (if cursorInRange line col then
      sendEvents s.busWidth s.enableSelect (s.cursorCommand line col) false else [])) := by
  cases h : cursorInRange line col <;> simp [exec, execSetCursor, h, send_eq]

/-- `SELECT_LCD` answers for every index, and emits nothing (46_panel.md R231). -/
theorem exec_selectLcd_emits_nothing (n : Byte) (s : State) :
    ∃ t, exec (.selectLcd n) s = .next t ∧ t.trace = s.trace := by
  cases hn : panelPattern n with
  | some v => exact ⟨_, exec_selectLcd_of_pattern hn s, rfl⟩
  | none => exact ⟨_, exec_selectLcd_of_no_pattern hn s, rfl⟩

/-- The meaning of every operation answers a next state. -/
theorem exec_total (i : Instr) (s : State) : ∃ t, exec i s = .next t := by
  cases i with
  | setCursor line col => exact ⟨_, exec_setCursor_eq line col s⟩
  | selectLcd n =>
    obtain ⟨t, hexec, -⟩ := exec_selectLcd_emits_nothing n s
    exact ⟨t, hexec⟩
  | _ => exact ⟨_, rfl⟩

/-- Settles O32: a step is the meaning of an operation or a transition, and both answer. -/
theorem everyStepHasANextState : Obligations.EveryStepHasANextState := by
  intro s
  cases hnext : nextOperation s with
  | none => exact ⟨_, step_of_nextOperation_eq_none hnext⟩
  | some op =>
    obtain ⟨i, rest⟩ := op
    obtain ⟨hr, hf, hd⟩ := nextOperation_eq_some.1 hnext
    rw [stepRunsTheDecodedOperation s i rest hr hf hd]
    exact exec_total i _

/-! ### Reset (70_reset_and_hazards.md R280) -/

/-- `function_set` with each configuration input at its bit (10_state.md R24). -/
theorem functionSetOf_eq_ite (cfg : Cfg) :
    functionSetOf cfg = 0x20 ||| (if cfg.bus8 then 0x10 else 0x00)
      ||| (if cfg.lines2 then 0x08 else 0x00) ||| (if cfg.font10 then 0x04 else 0x00) := by
  have bit (v : Bool) (k : Nat) :
      (BitVec.ofBool v).setWidth 8 <<< k = if v then (1 : Byte) <<< k else 0x00 := by
    cases v <;> simp
  rw [functionSetOf, bit, bit, bit]
  rfl

/-- Settles O36: with `rst` a transition is the reset, whose fields are those of R33. -/
theorem resetLoadsEveryField : Obligations.ResetLoadsEveryField := by
  intro inp s hr t
  have ht : t = applyReset inp.cfg s := tick_rst inp s hr
  rw [ht]
  exact ⟨rfl, rfl, rfl, functionSetOf_eq_ite inp.cfg, rfl, rfl, rfl, rfl, rfl,
    fun _ => ⟨rfl, rfl⟩⟩

/-- In a step with `rst` nothing is accepted and nothing is driven (log 7). -/
theorem reset_drives_nothing {inp : PortIn} (s : State) (hr : inp.rst = true) :
    accepts inp s = false ∧ (outputs inp s).bus = none ∧ (outputs inp s).dly = none := by
  cases hs : s.fsm <;> simp [accepts, outputs, hr, hs]

/-- Settles O37: with `rst` a transition reads nothing but the configuration inputs. -/
theorem resetBeatsEverythingElse : Obligations.ResetBeatsEverythingElse := by
  refine ⟨fun inp s hr => ?_, fun s cfg h => step_reset h⟩
  obtain ⟨haccept, hbus, hdly⟩ := reset_drives_nothing s hr
  exact ⟨haccept, hbus, hdly, fun b v d => (tick_rst inp s hr).symm⟩

/-! ### The configuration between resets (70_reset_and_hazards.md R285) -/

/-- Without `rst` a transition does not read the configuration inputs. -/
theorem tick_cfg {inp : PortIn} (s : State) (hr : inp.rst = false) (cfg : Cfg) :
    tick { inp with cfg := cfg } s = tick inp s := by
  simp [tick, hr]

/-- Settles O40: neither a transition without `rst` nor the meaning of an operation writes the
configuration. -/
theorem configurationFixedBetweenResets : Obligations.ConfigurationFixedBetweenResets := by
  refine ⟨fun inp s hr => ?_, fun s t hr hstep => ?_⟩
  · obtain ⟨hbw, hfs, hlb, -⟩ := tick_config inp s hr
    exact ⟨hbw, hfs, hlb, tick_cfg s hr⟩
  · obtain ⟨i, rest, -, -, -, hexec⟩ | ⟨-, rfl⟩ := step_cases hstep
    · obtain ⟨hbw, hfs, hlb, -⟩ := accessMatrixFrame i _ t hexec
      exact ⟨hbw, hfs, hlb⟩
    · obtain ⟨r, htake⟩ := takeAccepted_eq s
      obtain ⟨hbw, hfs, hlb, -⟩ :=
        tick_config (hostPorts s) (s.offer r) (by simp [hostPorts, hr])
      rw [hostTick, htake]
      exact ⟨hbw, hfs, hlb⟩

/-! ### The least time of each operation (70_reset_and_hazards.md R299) -/

/-- A duration for each bus width, as the table of R299 gives it. -/
def perBus (bw : BusWidth) (on8 on4 : Nat) : Nat :=
  match bw with
  | .bw8 => on8
  | .bw4 => on4

theorem totalDelay_command (bw : BusWidth) (sel d : Byte) :
    totalDelay (sendEvents bw sel d false) = perBus bw 40 41 := by
  cases bw <;> rfl

theorem totalDelay_data (bw : BusWidth) (sel d : Byte) :
    totalDelay (sendEvents bw sel d true) = perBus bw 2 3 := by
  cases bw <;> rfl

theorem totalDelay_longEvents (bw : BusWidth) (sel c : Byte) :
    totalDelay (longEvents bw sel c) = perBus bw 1640 1641 := by
  cases bw <;> rfl

theorem totalDelay_textEvents (bw : BusWidth) (sel : Byte) (text : List Byte) :
    totalDelay (textEvents bw sel text) = perBus bw (2 * text.length) (3 * text.length) := by
  induction text with
  | nil => cases bw <;> rfl
  | cons b bs ih =>
    rw [textEvents_cons, totalDelay_append, totalDelay_data, ih, List.length_cons]
    cases bw <;> simp only [perBus] <;> omega

theorem totalDelay_glyphEvents (bw : BusWidth) (sel slot : Byte) (rows : List Byte) :
    totalDelay (glyphEvents bw sel slot rows) =
      perBus bw (40 + 2 * rows.length) (41 + 3 * rows.length) := by
  rw [glyphEvents, totalDelay_append, totalDelay_command, totalDelay_textEvents]
  cases bw <;> rfl

/-- `SET_CURSOR` takes the time of one command in range, and none out of range. -/
theorem totalDelay_setCursor (bw : BusWidth) (sel d line col : Byte) :
    totalDelay (if cursorInRange line col then sendEvents bw sel d false else []) =
      if cursorInRange line col then perBus bw 40 41 else 0 := by
  split
  · exact totalDelay_command bw sel d
  · rfl

/-- A flag operation takes the time of one command. -/
theorem flagWrite_minDuration {i : Instr} {f : Bool × Nat} {v : Bool}
    (h : flagWrite i = some (f, v)) (s : State) : ∃ (t : State) (evs : List Event),
      exec i s = .next t ∧ t.trace = s.trace ++ evs ∧ totalDelay evs = perBus s.busWidth 40 41 :=
  ⟨_, _, exec_of_flagWrite h s, setFlag_trace s f v, totalDelay_command ..⟩

/-- Settles O30: each operation appends the events its family's lemma names, and their delays sum
to the table's entry. -/
theorem minimumDurations : Obligations.MinimumDurations := by
  intro i s hwf
  cases i with
  | begin =>
    obtain ⟨t, evs, hexec, htrace, h8, h4⟩ := beginTotals s
    refine ⟨t, evs, hexec, htrace, ?_⟩
    cases hbw : s.busWidth with
    | bw8 =>
      obtain ⟨-, hsum, -⟩ := h8 hbw
      exact hsum
    | bw4 =>
      obtain ⟨-, hsum, -⟩ := h4 hbw
      exact hsum
  | clear => exact ⟨_, _, exec_clear_eq s, rfl, totalDelay_longEvents ..⟩
  | home => exact ⟨_, _, exec_home_eq s, rfl, totalDelay_longEvents ..⟩
  | cursorLeft => exact ⟨_, _, exec_cursorLeft_eq s, rfl, totalDelay_command ..⟩
  | cursorRight => exact ⟨_, _, exec_cursorRight_eq s, rfl, totalDelay_command ..⟩
  | displayLeft => exact ⟨_, _, exec_displayLeft_eq s, rfl, totalDelay_command ..⟩
  | displayRight => exact ⟨_, _, exec_displayRight_eq s, rfl, totalDelay_command ..⟩
  | autoscrollOn | autoscrollOff | entryInc | entryDec => exact flagWrite_minDuration rfl s
  | blinkOn | blinkOff | cursorOn | cursorOff | displayOn | displayOff =>
    exact flagWrite_minDuration rfl s
  | setCursor line col =>
    exact ⟨_, _, exec_setCursor_eq line col s, rfl, totalDelay_setCursor ..⟩
  | createChar slot p0 p1 p2 p3 p4 p5 p6 p7 =>
    exact ⟨_, _, exec_createChar_eq slot p0 p1 p2 p3 p4 p5 p6 p7 s, rfl,
      totalDelay_glyphEvents ..⟩
  | selectLcd n =>
    obtain ⟨t, hexec, htrace⟩ := exec_selectLcd_emits_nothing n s
    exact ⟨t, [], hexec, by simp [htrace], rfl⟩
  | echo => exact ⟨_, [], exec_echo s, by simp, rfl⟩
  | writeN text => exact ⟨_, _, exec_writeN_eq text s, rfl, totalDelay_textEvents ..⟩
  | writeUntil term text =>
    exact ⟨_, _, exec_writeUntil_eq (of_decide_eq_true hwf) s, rfl, totalDelay_textEvents ..⟩

/-! ### Beginnings of operations (30_encoding.md R77) -/

theorem length_lt_of_takeText_eq_none {n : Nat} {bs : List Byte} (h : takeText n bs = none) :
    bs.length < n := by
  by_contra hle
  have htake := takeText_append (bs.take n) (bs.drop n)
  rw [List.take_append_drop, List.length_take_of_le (by omega), h] at htake
  cases htake

theorem notMem_of_takeUntil_eq_none {term : Byte} {bs : List Byte}
    (h : takeUntil term bs = none) : term ∉ bs := by
  intro hmem
  obtain ⟨text, rest, rfl, hm⟩ := List.eq_append_cons_of_mem hmem
  rw [takeUntil_append rest hm] at h
  cases h

/-- The operand bytes of an operation that the host has not finished: part of its header, or its
header and part of its payload. -/
inductive Unfinished : Op → List Byte → Prop where
  /-- Header bytes are missing. -/
  | header {op : Op} {got : List Byte} (h : got.length < op.headerLen) : Unfinished op got
  /-- Rows of a glyph are missing. -/
  | glyph (slot : Byte) {rows : List Byte} (h : rows.length < 8) :
      Unfinished .createChar (slot :: rows)
  /-- Bytes of a counted text are missing. -/
  | counted (lo hi : Byte) {text : List Byte} (h : text.length < (textCount lo hi).toNat) :
      Unfinished .writeN (lo :: hi :: text)
  /-- The terminator is missing. -/
  | unterminated {term : Byte} {text : List Byte} (h : term ∉ text) :
      Unfinished .writeUntil (term :: text)

/-- Operand bytes that do not decode are those of an unfinished operation. -/
theorem unfinished_of_decodeOperands {op : Op} {r : List Byte}
    (h : decodeOperands op r = .incomplete) : Unfinished op r := by
  cases op with
  | setCursor =>
    match r, h with
    | [], _ => exact .header (by decide)
    | [_], _ => exact .header (Nat.lt_succ_self 1)
  | createChar =>
    match r, h with
    | [], _ => exact .header (by decide)
    | [slot], _ | [slot, _], _ | [slot, _, _], _ | [slot, _, _, _], _ | [slot, _, _, _, _], _
    | [slot, _, _, _, _, _], _ | [slot, _, _, _, _, _, _], _ | [slot, _, _, _, _, _, _, _], _ =>
      exact .glyph slot (by simp)
  | selectLcd =>
    match r, h with
    | [], _ => exact .header (by decide)
  | writeN =>
    match r, h with
    | [], _ => exact .header (by decide)
    | [_], _ => exact .header (Nat.lt_succ_self 1)
    | lo :: hi :: text, h =>
      cases ht : takeText (textCount lo hi).toNat text with
      | none => exact .counted lo hi (length_lt_of_takeText_eq_none ht)
      | some => simp [decodeOperands, decodeWriteN, ht] at h
  | writeUntil =>
    match r, h with
    | [], _ => exact .header (by decide)
    | term :: text, h =>
      cases ht : takeUntil term text with
      | none => exact .unterminated (notMem_of_takeUntil_eq_none ht)
      | some => simp [decodeOperands, decodeWriteUntil, ht] at h
  | _ => cases h

/-- Bytes that do not decode are an opcode and the operand bytes of an unfinished operation. -/
theorem unfinished_of_decode {bs : List Byte} (hne : bs ≠ []) (h : decode bs = .incomplete) :
    ∃ op r, bs = op.toByte :: r ∧ Unfinished op r := by
  cases bs with
  | nil => exact absurd rfl hne
  | cons b r =>
    cases hop : Op.ofByte b with
    | none => simp [decode, hop] at h
    | some op =>
      obtain rfl := Op.toByte_of_ofByte hop
      exact ⟨op, r, rfl, unfinished_of_decodeOperands (decode_toByte op r ▸ h)⟩

/-! ### Runs over the beginning of an operation (70_reset_and_hazards.md R297) -/

theorem State.offer_of_opStream_eq {s : State} {r : List Byte} (h : s.opStream = r) :
    s.offer r = s := by
  subst h
  rfl

/-- Short of a whole header, the FSM takes the header bytes on offer and waits in `HDR`. -/
theorem partial_header_busy {s : State} {op : Op} {got more : List Byte} (hr : s.rst = none)
    (hlt : (got ++ more).length < op.headerLen) (hs : s.opStream = more) :
    Busy (s.goto (.hdr op got)) ((s.offer []).goto (.hdr op (got ++ more))) := by
  induction more generalizing s got with
  | nil =>
    rw [State.offer_of_opStream_eq hs, List.append_nil]
    exact .refl _
  | cons b more ih =>
    have hne : (got ++ [b]).length ≠ op.headerLen := by simp at hlt ⊢; omega
    have hrest := ih (s := s.offer more) (got := got ++ [b]) hr (by simpa using hlt) rfl
    rw [List.append_assoc] at hrest
    refine .step (by simp) ?_
    rw [hostTick_hdr (s := s.goto (.hdr op got)) hr rfl hs, acceptHeader, if_neg hne]
    exact hrest

/-- An operation that counts its payload sends the bytes on offer, short of all of them, and waits
in `PAYLOAD`. -/
theorem partial_payload_busy (op : Op) (hdr : List Byte) {text : List Byte} {left : Nat}
    {s : State} (hr : s.rst = none) (hlt : text.length < left) (hs : s.opStream = text) :
    Busy (s.goto (.payload op hdr (.bytes left)))
      ((sendText text (s.offer [])).goto (.payload op hdr (.bytes (left - text.length)))) := by
  induction text generalizing s left with
  | nil =>
    rw [State.offer_of_opStream_eq hs]
    exact .refl _
  | cons b bs ih =>
    rw [List.length_cons] at hlt
    have hrest := ih (s := send b true (s.offer bs)) (left := left - 1) (by simpa using hr)
      (by omega) (by simp)
    rw [send_offer, State.offer_offer, ← send_goto_offer b true s (.payload op hdr (.bytes left)),
      Nat.sub_sub, Nat.add_comm 1] at hrest
    exact .trans (payload_more hr (by omega) rfl hs) hrest

/-- The FSM waits for an operand byte, with none on offer and no reset pending. -/
structure State.Awaiting (t : State) : Prop where
  rst : t.rst = none
  opStream : t.opStream = []
  fsm : (∃ op got, t.fsm = .hdr op got) ∨ ∃ op hdr pay, t.fsm = .payload op hdr pay

theorem State.Awaiting.fixed {t : State} (h : t.Awaiting) : hostTick t = t :=
  hostTick_stalled h.rst h.opStream (.inr h.fsm)

theorem State.Awaiting.fsm_ne_idle {t : State} (h : t.Awaiting) : t.fsm ≠ .idle := by
  obtain ⟨op, got, hf⟩ | ⟨op, hdr, pay, hf⟩ := h.fsm <;> simp [hf]

theorem awaiting_hdr {s : State} (hr : s.rst = none) (op : Op) (got : List Byte) :
    ((s.offer []).goto (.hdr op got)).Awaiting :=
  ⟨hr, rfl, .inl ⟨op, got, rfl⟩⟩

theorem awaiting_payload {s : State} (hr : s.rst = none) (text : List Byte) (op : Op)
    (hdr : List Byte) (pay : Payload) :
    ((sendText text (s.offer [])).goto (.payload op hdr pay)).Awaiting := by
  rw [sendText_eq]
  exact ⟨hr, rfl, .inr ⟨op, hdr, pay, rfl⟩⟩

/-- With the beginning of an operation on offer, the FSM takes it all and then waits for more. -/
theorem unfinished_busy {s : State} {op : Op} {r : List Byte} (hr : s.rst = none)
    (hf : s.fsm = .idle) (hs : s.opStream = op.toByte :: r) (hu : Unfinished op r) :
    ∃ t, Busy (hostTick s) t ∧ t.Awaiting := by
  cases hu with
  | header hlt =>
    have hne : op.headerLen ≠ 0 := by omega
    refine ⟨_, ?_, awaiting_hdr hr op r⟩
    rw [hostTick_idle hr hf hs, acceptOpcode_toByte (Op.ofByte_toByte op), if_neg hne]
    exact partial_header_busy (s := s.offer r) (got := []) hr hlt rfl
  | @glyph slot rows hlt =>
    have hheader := header_busy (hdr := [slot]) hr hf rfl hs
    have hhead := enterExec_busy .createChar [slot] (s.offer rows) hr
    rw [finish_head_createChar] at hhead
    have hrows := partial_payload_busy .createChar [slot] (left := 8)
      (s := send (cgramCommand slot) false (s.offer rows)) (by simpa using hr) hlt (by simp)
    exact ⟨_, hheader.trans (hhead.trans hrows), awaiting_payload (by simpa using hr) ..⟩
  | @counted lo hi text hlt =>
    have hcount := countBytes_textCount lo hi
    have hle : (textCount lo hi).toNat ≤ 65535 := by omega
    have hheader := header_busy (hdr := [lo, hi]) hr hf rfl hs
    have hhead := enterExec_busy .writeN [lo, hi] (s.offer text) hr
    rw [← hcount, finish_head_writeN _ _ (by omega) hle, initPayload_writeN hle, hcount] at hhead
    have htext := partial_payload_busy .writeN [lo, hi] (s := s.offer text) hr hlt rfl
    exact ⟨_, hheader.trans (hhead.trans htext), awaiting_payload hr ..⟩
  | unterminated hm =>
    exact ⟨_, writeUntil_unterminated_busy hr hf hm hs, awaiting_payload hr ..⟩

/-! ### Never back in `IDLE`, never in `FAULT` -/

/-- A busy run to a state outside `IDLE` that a transition keeps is outside `IDLE` for good. -/
theorem Busy.never_idle {s t : State} (hb : Busy s t) (ht : hostTick t = t)
    (hf : t.fsm ≠ .idle) (n : Nat) : (hostTicks n s).fsm ≠ .idle := by
  induction hb generalizing n with
  | refl => rwa [hostTicks_of_fixed ht]
  | step h _ ih =>
    cases n with
    | zero => exact h
    | succ n => exact ih ht hf n

/-- Only from `IDLE` does a transition enter `FAULT`. -/
theorem hostTick_fsm_ne_fault {s : State} (hidle : s.fsm ≠ .idle) (hne : s.fsm ≠ .fault) :
    (hostTick s).fsm ≠ .fault := by
  intro hfault
  obtain ⟨r, htake⟩ := takeAccepted_eq s
  rw [hostTick, htake] at hfault
  obtain ⟨-, hf, -⟩ := tick_enters_fault (s := s.offer r) hne hfault
  exact hidle hf

/-- A run that stays outside `IDLE` does not enter `FAULT`. -/
theorem never_fault_of_never_idle {s : State} (hne : s.fsm ≠ .fault)
    (hidle : ∀ n, (hostTicks n s).fsm ≠ .idle) (n : Nat) : (hostTicks n s).fsm ≠ .fault := by
  induction n with
  | zero => exact hne
  | succ n ih =>
    rw [hostTicks_add]
    exact hostTick_fsm_ne_fault (hidle n) ih

/-- Settles O42: the bytes on offer are an opcode and the operand bytes of an unfinished operation,
over which the FSM runs busily to a state that waits for more; the opcode is legal, and from outside
`IDLE` no transition enters `FAULT`. -/
theorem unfinishedOperationNeverEnds : Obligations.UnfinishedOperationNeverEnds := by
  intro s hr hf hne hd
  obtain ⟨op, r, hs, hu⟩ := unfinished_of_decode hne hd
  obtain ⟨t, hbusy, hawait⟩ := unfinished_busy hr hf hs hu
  obtain ⟨n, hn, -⟩ := hbusy.ticks
  have hidle := hbusy.never_idle hawait.fixed hawait.fsm_ne_idle
  have hlegal : (hostTick s).fsm ≠ .fault := by
    rw [hostTick_idle hr hf hs, Ne, acceptOpcode_fsm_eq_fault]
    simp
  have hfault := never_fault_of_never_idle hlegal hidle
  refine ⟨⟨n + 1, t, hn, hawait.fixed, hawait.opStream, hawait.fsm⟩, fun m hm => ?_⟩
  obtain ⟨k, rfl⟩ : ∃ k, m = k + 1 := ⟨m - 1, by omega⟩
  exact ⟨hidle k, hfault k⟩

end Sys2Proof.Machine
